-- ==== Sys2Proof/Word.lean ====
section
/-! DEFINITION. The word types of RSAARITH-1 and their plainest arithmetic (00_scope.md R10, R11). -/

namespace Sys2Proof

/-- A 32-bit word: a bus word, a control register, a command word (R10, R42, R64). -/
abbrev Word := BitVec 32

/-- A byte lane of a bus word (R46). -/
abbrev Byte := BitVec 8

/-- An offset into the 8 KiB register window (R38: `off` is a 13-bit offset). -/
abbrev Offset := BitVec 13

/-- One bit of a register as a natural number. -/
def bit (b : Bool) : Nat := if b then 1 else 0

end Sys2Proof
end

