-- ==== Sys2Proof/Config.lean ====
section
/-! DEFINITION. What an implementation and its platform fix (OPW, BASE, the mapping of the window), the constants of the
register map, and the free values: what the spec leaves unspecified while the machine goes on. -/

namespace Sys2Proof

/-- How the platform maps the register window in its address space (R56, R61). -/
inductive Mapping where
  /-- non-cacheable, non-bufferable device memory, which R61 requires -/
  | device
  | cacheable
  | writeCombining
deriving DecidableEq, Repr

/-- The parameters of the block and of its platform: `OPW` (R4), `BASE` (R8), and R61's platform condition. Nothing
changes them while the machine runs. -/
structure Platform where
  opw : Nat
  base : Nat
  mapping : Mapping
deriving DecidableEq, Repr

/-- `NW = OPW / 32`, the number of 32-bit words in an operand (R6). -/
def Platform.nw (p : Platform) : Nat := p.opw / 32

/-- The size of the register window: 8 KiB (R38). -/
abbrev Config.windowSize : Nat := 0x2000

/-- The platforms the spec admits: OPW a multiple of 32 with 64 <= OPW <= 4096 (R4), BASE aligned to 8 KiB (R8), the window
mapped as device memory (R61). -/
def Platform.legal (p : Platform) : Bool :=
  p.opw % 32 == 0 && 64 ≤ p.opw && p.opw ≤ 4096 && p.base % Config.windowSize == 0 && p.mapping == .device

/-- The reference configuration of R9 (OPW = 64). DESIGN CHOICE: BASE = 0, which no rule gives (notes/assumptions/1.md). -/
def Platform.reference : Platform := { opw := 64, base := 0, mapping := .device }

/-- The constant the `ID` register reads: "RSA1" (R25). -/
def Config.idValue : Word := 0x52534131#32

/-- How many operand registers there are (R7). -/
abbrev Config.nreg : Nat := 8

/-- FREE VALUE (R51, 93 U2): what the k-th draw of a host read of the operand window while `BUSY = 1` returns. It has no
body: no proof can depend on it (notes/assumptions/5.md). -/
opaque Config.busyRead : Nat → Word

/-- FREE VALUE (R21, R37, R125): what operand register `Vi` holds after a hardware reset event, before it is reduced to
OPW bits (notes/assumptions/6.md). -/
opaque Config.unspecifiedReg : Nat → Nat → Nat

/-- FREE VALUE (R23, R37, 93 U3): what `N` holds after a hardware reset event or a soft reset, before it is reduced to OPW
bits (notes/assumptions/6.md, 7.md). -/
opaque Config.unspecifiedModulus : Nat → Nat

end Sys2Proof
end

