-- ==== Sys2Proof/Syntax.lean ====
section
/-! DEFINITION. The commands of RSAARITH-1: one constructor per row of spec/opcode_table.json (30_encoding.md R70). -/

namespace Sys2Proof

/-- An operand register number: `k` names `Vk`; every value 0 to 7 names a register (R19, R67). -/
abbrev Reg := Fin 8

/-- A command. Field names are those of R65 and R66; which fields a command has is R70's "fields used". -/
inductive Instr where
  /-- NOP (R80) -/
  | nop
  /-- MOV `vd, va` (R81) -/
  | mov (rd rs1 : Reg)
  /-- LDI `vd, imm` (R82); `imm` is well-formed below 2^20 (R68, R75) -/
  | ldi (rd : Reg) (imm : Nat)
  /-- SETMOD `va` (R83) -/
  | setmod (rs1 : Reg)
  /-- MONTMUL `vd, va, vb` (R85) -/
  | montmul (rd rs1 rs2 : Reg)
  /-- TOMONT `vd, va` (R86) -/
  | tomont (rd rs1 : Reg)
  /-- FROMMONT `vd, va` (R87) -/
  | frommont (rd rs1 : Reg)
  /-- MODEXP `vd, va, vb`, CHK = 0 (R90) -/
  | modexp (rd rs1 rs2 : Reg)
  /-- MODEXP.CHK `vd, va, vb`, CHK = 1 (R91) -/
  | modexpChk (rd rs1 rs2 : Reg)
  /-- MODMUL `vd, va, vb` (R96) -/
  | modmul (rd rs1 rs2 : Reg)
  /-- MODRED `vd, vh, vl` (R97) -/
  | modred (rd rs1 rs2 : Reg)
  /-- GCD `vd, va, vb` (R100) -/
  | gcd (rd rs1 rs2 : Reg)
  /-- MODINV `vd, va, vm` (R101) -/
  | modinv (rd rs1 rs2 : Reg)
deriving DecidableEq, Repr

end Sys2Proof
end

