-- ==== Sys2Proof/Machine/State.lean ====
section
/-! DEFINITION. The state of the block as plain data (10_state.md), the turns of its two agents (R18), the reasons a step
can stop, and the state right after hardware reset (R37, R125). -/

namespace Sys2Proof.Machine

/-- The width of one host access (R42, R43): only `word` (32 bits) is answered. A wider transfer is a sequence of `word`
accesses (R42; `HostOp.wideRead`, `HostOp.wideWrite`). -/
inductive Width where
  | byte
  | half
  | word
deriving DecidableEq, Repr

/-- What the host does at a host bus address (R14, R38). -/
inductive HostOp where
  /-- a bus read of the given width -/
  | read (addr : Nat) (width : Width)
  /-- a bus write of the given width; `data` is what the data port carries -/
  | write (addr : Nat) (width : Width) (data : Word)
  /-- an instruction fetch (93 F4) -/
  | fetch (addr : Nat)
deriving DecidableEq, Repr

/-- Whose turn it is (R18). Any order of turns is a run (R118). -/
inductive Turn where
  /-- one access of the host -/
  | host (op : HostOp)
  /-- the engine's step: the completion of the command in flight (R105), nothing while none is in flight -/
  | engine
  /-- the platform asserts and releases the reset input (R125, 93 P1) -/
  | rst
deriving DecidableEq, Repr

/-- What the last host access got back from the block. -/
inductive Response where
  /-- no access has been made -/
  | idle
  /-- a read returned this 32-bit value (R48) -/
  | data (value : Word)
  /-- a write was taken by the block, to whatever effect R49 gives it (a refused or ignored one too) -/
  | ack
  /-- the address lies outside the window: the access did not reach the block (R38) -/
  | notSelected
deriving DecidableEq, Repr

/-- Why a command completes with an error (R108). -/
inductive CmdError where
  | illegal
  | nomod
  | badmod
  | range
  | ptrange
  | noinv
deriving DecidableEq, Repr

/-- The state. Fields `v` to `cmdcnt` are the spec's (10_state.md section 1); the last five are the model's own (INVENTORY.md). -/
structure State where
  /-- the operand registers V0 to V7 as naturals below `2^OPW` (R19, R11) -/
  v : Vector Nat 8
  /-- the modulus register `N` (R22) -/
  n : Nat
  /-- `MV`: a modulus is loaded (R23; STATUS bit 2) -/
  mv : Bool
  /-- `CTRL.IE` (R27) -/
  ie : Bool
  /-- `STATUS.BUSY` (R28) -/
  busy : Bool
  /-- `STATUS.DONE` (R28) -/
  done : Bool
  /-- `STATUS.OVR` (R28, R130) -/
  ovr : Bool
  /-- `STATUS.ERR` (R28, R108) -/
  err : BitVec 4
  /-- `CMD`: the last accepted command word (R30) -/
  cmd : Word
  /-- `CMDCNT`: completions modulo 2^32 (R31) -/
  cmdcnt : Word
  /-- the parameters (R4, R8, R61); no step changes them -/
  plat : Platform
  /-- the turns to come, the next one first; when none is left only the engine has a step (R135) -/
  agenda : List Turn
  /-- what the last host access got back -/
  resp : Response
  /-- how many free values have been drawn -/
  draws : Nat
  /-- for each register, the words nobody has written since hardware reset (R21) -/
  unwritten : Vector (List Nat) 8
deriving DecidableEq, Repr

/-- Why a step stops with a fault. -/
inductive Fault where
  /-- Raised by `hostAccess`: an access to the window that is not a 32-bit access at a multiple of 4, or an instruction fetch
  from the window (R43, 93 F4). The block is unchanged. Safe: the machine stops where a platform may go on. -/
  | busError (off : Offset)
  /-- Raised by `strictStep` only (Sys2Proof/Safety.lean), never by `step`: the next turn reads an operand register that has
  not been written whole since hardware reset (R21, 93 U1). Safe. -/
  | unwrittenRead (r : Reg)
deriving DecidableEq, Repr

/-- Why a step is refused. -/
inductive Refusal where
  /-- Raised by `exec` for an instruction without a meaning in this model: none. Safe. -/
  | notModelled (mnemonic : String)
  /-- Raised by `step`: the parameters are not legal (R4, R8) or the platform maps the window as cacheable or
  write-combining memory, which a model shall refuse (R61). Safe. -/
  | excludedPlatform
deriving DecidableEq, Repr

/-- The state right after hardware reset on the platform `p` (R37, R125), no turn planned. DESIGN CHOICE: the operand
registers and `N`, which R37 leaves unspecified, hold 0 (notes/assumptions/3.md, 4.md). -/
def State.resetOn (p : Platform) : State :=
  { v := Vector.replicate 8 0
    n := 0
    mv := false
    ie := false
    busy := false
    done := false
    ovr := false
    err := 0#4
    cmd := 0x00000000#32
    cmdcnt := 0#32
    plat := p
    agenda := []
    resp := .idle
    draws := 0
    unwritten := Vector.replicate 8 (List.range p.nw) }

/-- The machine right after hardware reset in the reference configuration (R9, R125). -/
def State.reset : State := State.resetOn Platform.reference

end Sys2Proof.Machine
end

