-- ==== Sys2Proof/Machine/Flags.lean ====
section
/-! DEFINITION. The control and status registers as the bus sees them, the error codes, the interrupt output, and the
writes of CTRL and STATUS (R25 to R28, R33, R108). -/

namespace Sys2Proof.Machine

/-- The 4-bit code of an error (R108); 0 is NONE, 7 to 15 are never written. -/
def CmdError.code : CmdError → BitVec 4
  | .illegal => 1#4
  | .nomod => 2#4
  | .badmod => 3#4
  | .range => 4#4
  | .ptrange => 5#4
  | .noinv => 6#4

/-- `BUSY | DONE << 1 | MV << 2 | OVR << 3 | ERR << 4`, the reserved bits 0 (R28). -/
def State.statusValue (s : State) : Word :=
  BitVec.ofNat 32 (bit s.busy + bit s.done * 2 + bit s.mv * 4 + bit s.ovr * 8 + s.err.toNat * 16)

/-- `zext_32(IE)` (R27). -/
def State.ctrlValue (s : State) : Word := BitVec.ofNat 32 (bit s.ie)

/-- `CFG`: NW in bits 15:0, NREG = 8 in bits 23:16, the rest 0 (R26). -/
def State.cfgValue (s : State) : Word := BitVec.ofNat 32 (s.plat.nw + Config.nreg * 2 ^ 16)

/-- The interrupt output: `CTRL.IE AND STATUS.DONE` (R33, R117). -/
def State.irq (s : State) : Bool := s.ie && s.done

/-- A write of `d` to `STATUS`: bit 1 clears `DONE`, bit 3 clears `OVR`, every other bit is ignored (R28). -/
def State.statusWrite (s : State) (d : Word) : State :=
  { s with done := s.done && !d.getLsbD 1, ovr := s.ovr && !d.getLsbD 3 }

/-- `CTRL.IE <- v[0]`: a write of `d` to `CTRL` with bit 1 clear (R27). -/
def State.setIe (s : State) (d : Word) : State := { s with ie := d.getLsbD 0 }

/-- A refused access sets the sticky `OVR` and changes nothing else (R50, R130). -/
def State.refuseAccess (s : State) : State := { s with ovr := true }

end Sys2Proof.Machine
end

