-- ==== Sys2Proof/WellFormed.lean ====
section
/-! DEFINITION. Which commands have an encoding. Register fields are 3 bits wide and every value names a register (R67), so
their type is the check; LDI's immediate is the one field with a bound of its own (R68, R75). -/

namespace Sys2Proof

/-- R75: `0 <= imm < 2^20` (else the assembler rejects the line). -/
def immFits (imm : Nat) : Bool := imm < 2 ^ 20

/-- A command that can be written as a command word (R65, R66). -/
def Instr.wellFormed : Instr → Bool
  | .nop => true
  | .mov _ _ => true
  | .ldi _ imm => immFits imm
  | .setmod _ => true
  | .montmul _ _ _ => true
  | .tomont _ _ => true
  | .frommont _ _ => true
  | .modexp _ _ _ => true
  | .modexpChk _ _ _ => true
  | .modmul _ _ _ => true
  | .modred _ _ _ => true
  | .gcd _ _ _ => true
  | .modinv _ _ _ => true

end Sys2Proof
end

