-- ==== Sys2Proof/Decode.lean ====
section
/-! DEFINITION. The decoder, written from the opcode map of R70 (mask and match) as R72 runs it, and the encoder, written
from the formats R and I of R65 and R66. -/

namespace Sys2Proof

/-- `RD = w[10:8]` (R65, R66). -/
def fieldRd (w : Word) : Reg := (w.extractLsb' 8 3).toFin

/-- `RS1 = w[14:12]` (R65). -/
def fieldRs1 (w : Word) : Reg := (w.extractLsb' 12 3).toFin

/-- `RS2 = w[18:16]` (R65). -/
def fieldRs2 (w : Word) : Reg := (w.extractLsb' 16 3).toFin

/-- `IMM20 = w[31:12]` (R66, R68). -/
def fieldImm20 (w : Word) : Nat := (w.extractLsb' 12 20).toNat

/-- A row of the opcode map: a word `w` is the row's command exactly when `(w AND mask) = pattern` (R70). -/
structure OpcodeRow where
  mnemonic : String
  mask : Word
  pattern : Word
  build : Word → Instr

/-- `w` is the row's command (R70). -/
def OpcodeRow.accepts (r : OpcodeRow) (w : Word) : Bool := w &&& r.mask == r.pattern

/-- The rows of the control and data-movement commands (R70). -/
def opcodeMapControl : List OpcodeRow :=
  [ { mnemonic := "nop", mask := 0xFFFFFFFF#32, pattern := 0x00000000#32, build := fun _ => .nop },
    { mnemonic := "mov", mask := 0xFFFF88FF#32, pattern := 0x00000001#32,
      build := fun w => .mov (fieldRd w) (fieldRs1 w) },
    { mnemonic := "ldi", mask := 0x000008FF#32, pattern := 0x00000002#32,
      build := fun w => .ldi (fieldRd w) (fieldImm20 w) },
    { mnemonic := "setmod", mask := 0xFFFF8FFF#32, pattern := 0x00000008#32,
      build := fun w => .setmod (fieldRs1 w) } ]

/-- The rows of the four arithmetic units (R70). -/
def opcodeMapUnits : List OpcodeRow :=
  [ { mnemonic := "montmul", mask := 0xFFF888FF#32, pattern := 0x00000010#32,
      build := fun w => .montmul (fieldRd w) (fieldRs1 w) (fieldRs2 w) },
    { mnemonic := "tomont", mask := 0xFFFF88FF#32, pattern := 0x00000011#32,
      build := fun w => .tomont (fieldRd w) (fieldRs1 w) },
    { mnemonic := "frommont", mask := 0xFFFF88FF#32, pattern := 0x00000012#32,
      build := fun w => .frommont (fieldRd w) (fieldRs1 w) },
    { mnemonic := "modexp", mask := 0xFFF888FF#32, pattern := 0x00000020#32,
      build := fun w => .modexp (fieldRd w) (fieldRs1 w) (fieldRs2 w) },
    { mnemonic := "modexp.chk", mask := 0xFFF888FF#32, pattern := 0x00100020#32,
      build := fun w => .modexpChk (fieldRd w) (fieldRs1 w) (fieldRs2 w) },
    { mnemonic := "modmul", mask := 0xFFF888FF#32, pattern := 0x00000030#32,
      build := fun w => .modmul (fieldRd w) (fieldRs1 w) (fieldRs2 w) },
    { mnemonic := "modred", mask := 0xFFF888FF#32, pattern := 0x00000031#32,
      build := fun w => .modred (fieldRd w) (fieldRs1 w) (fieldRs2 w) },
    { mnemonic := "gcd", mask := 0xFFF888FF#32, pattern := 0x00000040#32,
      build := fun w => .gcd (fieldRd w) (fieldRs1 w) (fieldRs2 w) },
    { mnemonic := "modinv", mask := 0xFFF888FF#32, pattern := 0x00000041#32,
      build := fun w => .modinv (fieldRd w) (fieldRs1 w) (fieldRs2 w) } ]

/-- The opcode map, row for row in the spec's order (R70). -/
def opcodeMap : List OpcodeRow := opcodeMapControl ++ opcodeMapUnits

/-- R72: the first row that accepts the word; `none` is `raise CmdError(ILLEGAL)` (R73). Total on every 32-bit word. -/
def decode (w : Word) : Option Instr := (opcodeMap.find? (·.accepts w)).map (·.build w)

/-- The instruction read from a table word of `nbits` bits (spec/opcode_table.json numbers bit 0 as the least significant
bit of the one word; bits above `nbits` are 0). -/
def decodeTableWord (nbits w : Nat) : Option Instr := decode (BitVec.ofNat 32 (w % 2 ^ nbits))

/-- A register number in a word (R65). -/
def regBits (r : Reg) : Word := BitVec.ofNat 32 r.val

/-- Format R: `word = OP | RD << 8 | RS1 << 12 | RS2 << 16 | CHK << 20` (R65). -/
def formatR (op : Word) (rd rs1 rs2 : Reg) (chk : Bool) : Word :=
  op ||| (regBits rd <<< 8) ||| (regBits rs1 <<< 12) ||| (regBits rs2 <<< 16) ||| (BitVec.ofNat 32 (bit chk) <<< 20)

/-- Format I: `word = OP | RD << 8 | IMM20 << 12` (R66). -/
def formatI (op : Word) (rd : Reg) (imm : Nat) : Word :=
  op ||| (regBits rd <<< 8) ||| (BitVec.ofNat 32 imm <<< 12)

/-- The command word of an instruction: the opcodes of R70 in the formats of R65 and R66, every unused field 0 (R73). -/
def encode : Instr → Word
  | .nop => formatR 0x00#32 0 0 0 false
  | .mov rd rs1 => formatR 0x01#32 rd rs1 0 false
  | .ldi rd imm => formatI 0x02#32 rd imm
  | .setmod rs1 => formatR 0x08#32 0 rs1 0 false
  | .montmul rd rs1 rs2 => formatR 0x10#32 rd rs1 rs2 false
  | .tomont rd rs1 => formatR 0x11#32 rd rs1 0 false
  | .frommont rd rs1 => formatR 0x12#32 rd rs1 0 false
  | .modexp rd rs1 rs2 => formatR 0x20#32 rd rs1 rs2 false
  | .modexpChk rd rs1 rs2 => formatR 0x20#32 rd rs1 rs2 true
  | .modmul rd rs1 rs2 => formatR 0x30#32 rd rs1 rs2 false
  | .modred rd rs1 rs2 => formatR 0x31#32 rd rs1 rs2 false
  | .gcd rd rs1 rs2 => formatR 0x40#32 rd rs1 rs2 false
  | .modinv rd rs1 rs2 => formatR 0x41#32 rd rs1 rs2 false

/-- The name of the instruction's row in the opcode map (R70). -/
def Instr.mnemonic : Instr → String
  | .nop => "nop"
  | .mov _ _ => "mov"
  | .ldi _ _ => "ldi"
  | .setmod _ => "setmod"
  | .montmul _ _ _ => "montmul"
  | .tomont _ _ => "tomont"
  | .frommont _ _ => "frommont"
  | .modexp _ _ _ => "modexp"
  | .modexpChk _ _ _ => "modexp.chk"
  | .modmul _ _ _ => "modmul"
  | .modred _ _ _ => "modred"
  | .gcd _ _ _ => "gcd"
  | .modinv _ _ _ => "modinv"

end Sys2Proof
end

