-- ==== Sys2Proof/Machine/Operands.lean ====
section
/-! DEFINITION. Operand forms: operand registers and their 32-bit words, the immediate, the fields of a window offset, and
which registers a command reads and writes (R10, R20, R38, R40, R45, R46, R68). -/

namespace Sys2Proof.Machine

/-- `v[hi:lo] = (v div 2^lo) mod 2^(hi-lo+1)` (R10). -/
def slice (v hi lo : Nat) : Nat := v / 2 ^ lo % 2 ^ (hi - lo + 1)

/-- Word `w` of an operand: `x[32*w + 31 : 32*w]`, word 0 the least significant (R40, R45). -/
def operandWord (x w : Nat) : Word := BitVec.ofNat 32 (slice x (32 * w + 31) (32 * w))

/-- The operand with word `w` replaced by `d` and no other bit changed (R40). -/
def setOperandWord (x w : Nat) (d : Word) : Nat :=
  x % 2 ^ (32 * w) + d.toNat * 2 ^ (32 * w) + x / 2 ^ (32 * w + 32) * 2 ^ (32 * w + 32)

/-- Byte lane `k` of a bus word carries bits `[8*k + 7 : 8*k]` (R46). -/
def laneByte (d : Word) (k : Nat) : Byte := d.extractLsb' (8 * k) 8

/-- The value LDI writes: `zext_OPW(IMM20)`, the 20-bit field zero-extended (R68). A well-formed immediate is its own value;
the field holds the low 20 bits of any other (notes/assumptions/18.md). -/
def zextImm (imm : Nat) : Nat := imm % 2 ^ 20

/-- `x[i]` (R13). -/
def State.readReg (s : State) (r : Reg) : Nat := s.v[r.val]

/-- `x[i] <- val`: a whole register is written by a command, so none of its words is unwritten afterwards (R13, R21). -/
def State.writeReg (s : State) (r : Reg) (val : Nat) : State :=
  { s with v := s.v.set r.val val, unwritten := s.unwritten.set r.val [] }

/-- The host writes word `w` of `Vr` (R40), and that word is no longer unwritten (R21). -/
def State.writeRegWord (s : State) (r : Reg) (w : Nat) (d : Word) : State :=
  { s with
    v := s.v.set r.val (setOperandWord (s.readReg r) w d)
    unwritten := s.unwritten.set r.val (s.unwritten[r.val].filter (· ≠ w)) }

/-- The register has been written whole since hardware reset, by a command or by the host in all its words (R21). -/
def State.regWritten (s : State) (r : Reg) : Bool := s.unwritten[r.val].isEmpty

/-- The offset lies in the operand window, `0x1000` to `0x1FFC` (R39). -/
def inOperandWindow (off : Offset) : Bool := off.getLsbD 12

/-- `r = off[11:9]` (R40). -/
def offsetReg (off : Offset) : Reg := (off.extractLsb' 9 3).toFin

/-- `w = off[8:2]` (R40). -/
def offsetWord (off : Offset) : Nat := (off.extractLsb' 2 7).toNat

/-- The offset of word `w` of `Vr`: `0x1000 + 0x200*r + 4*w` (R39, R40). -/
def operandOffset (r : Reg) (w : Nat) : Nat := 0x1000 + 0x200 * r.val + 4 * w

/-- The registers a command's `RS1` and `RS2` fields name, in the order its pseudocode reads them (R20). -/
def sourcesOf : Instr → List Reg
  | .nop => []
  | .mov _ rs1 => [rs1]
  | .ldi _ _ => []
  | .setmod rs1 => [rs1]
  | .montmul _ rs1 rs2 => [rs1, rs2]
  | .tomont _ rs1 => [rs1]
  | .frommont _ rs1 => [rs1]
  | .modexp _ rs1 rs2 => [rs1, rs2]
  | .modexpChk _ rs1 rs2 => [rs1, rs2]
  | .modmul _ rs1 rs2 => [rs1, rs2]
  | .modred _ rs1 rs2 => [rs1, rs2]
  | .gcd _ rs1 rs2 => [rs1, rs2]
  | .modinv _ rs1 rs2 => [rs1, rs2]

/-- The register a command's `RD` field names; NOP and SETMOD write no operand register (R20). -/
def destOf : Instr → Option Reg
  | .nop => none
  | .mov rd _ => some rd
  | .ldi rd _ => some rd
  | .setmod _ => none
  | .montmul rd _ _ => some rd
  | .tomont rd _ => some rd
  | .frommont rd _ => some rd
  | .modexp rd _ _ => some rd
  | .modexpChk rd _ _ => some rd
  | .modmul rd _ _ => some rd
  | .modred rd _ _ => some rd
  | .gcd rd _ _ => some rd
  | .modinv rd _ _ => some rd

/-- The commands that need a loaded modulus: row 2 of R108. -/
def needsModulus : Instr → Bool
  | .nop => false
  | .mov _ _ => false
  | .ldi _ _ => false
  | .setmod _ => false
  | .montmul _ _ _ => true
  | .tomont _ _ => true
  | .frommont _ _ => true
  | .modexp _ _ _ => true
  | .modexpChk _ _ _ => true
  | .modmul _ _ _ => true
  | .modred _ _ _ => true
  | .gcd _ _ _ => false
  | .modinv _ _ _ => false

end Sys2Proof.Machine
end

