-- ==== Sys2Proof/Machine/Ops.lean ====
section
/-! DEFINITION. The named operations of the command lifecycle: acceptance (R104), completion with or without an error (R105,
R111, R112), soft reset (R126) and hardware reset (R125). The block takes no trap (R115): completing with an error code
is what this hardware does where another takes an exception, and there is no return from it (R116). -/

namespace Sys2Proof.Machine

/-- `Accept(v)` (R104): store the word, set BUSY, clear DONE and ERR. The word is not decoded yet. -/
def State.accept (s : State) (w : Word) : State :=
  { s with cmd := w, busy := true, done := false, err := 0#4 }

/-- The status writes of a completion: `ERR <- code`, `DONE <- 1`, `BUSY <- 0`, `CMDCNT` incremented (R78, R105). -/
def State.finish (s : State) (code : BitVec 4) : State :=
  { s with err := code, done := true, busy := false, cmdcnt := s.cmdcnt + 1#32 }

/-- `Complete()` (R105): the writes of Execute are committed only without an error; a raise discards them all (R78, R112).
`r` is the state Execute left, or the error it raised. -/
def State.complete (s : State) (r : Except CmdError State) : State :=
  match r with
  | .ok t => t.finish 0#4
  | .error e => s.finish e.code

/-- `if MV == 0: raise CmdError(NOMOD)`, then the rest of Execute with the modulus `N` (R85 to R97, R110). -/
def State.withModulus (s : State) (rest : Nat → Except CmdError State) : Except CmdError State :=
  if s.mv then rest s.n else .error .nomod

/-- `N <- n; MV <- 1` (R83). -/
def State.loadModulus (s : State) (n : Nat) : State := { s with n := n, mv := true }

/-- `SoftReset()` (R126): the command in flight is abandoned, the control state is cleared, V0 to V7 keep their values. `N`
becomes unspecified: a free value (R37, 93 U3; notes/assumptions/7.md). -/
def State.softReset (s : State) : State :=
  { s with
    ie := false
    busy := false
    done := false
    ovr := false
    err := 0#4
    mv := false
    n := Config.unspecifiedModulus s.draws % 2 ^ s.plat.opw
    cmd := 0x00000000#32
    cmdcnt := 0#32
    draws := s.draws + 1 }

/-- Hardware reset as an event (R125): every piece of state takes its hardware-reset value of R37, the unspecified ones a free
value (notes/assumptions/6.md), and no operand register counts as written any more (R21). -/
def State.hardReset (s : State) : State :=
  { s with
    v := Vector.ofFn fun i : Fin 8 => Config.unspecifiedReg s.draws i.val % 2 ^ s.plat.opw
    n := Config.unspecifiedModulus s.draws % 2 ^ s.plat.opw
    mv := false
    ie := false
    busy := false
    done := false
    ovr := false
    err := 0#4
    cmd := 0x00000000#32
    cmdcnt := 0#32
    draws := s.draws + 1
    unwritten := Vector.replicate 8 (List.range s.plat.nw) }

end Sys2Proof.Machine
end

