-- ==== Sys2Proof/Machine/Bus.lean ====
section
/-! DEFINITION. The host bus interface (20_memory.md): which accesses the block answers, a 32-bit read (R48), a 32-bit write
(R49), and one access of the host as one step (R52, R56). -/

namespace Sys2Proof.Machine

/-- What an address is to the block (R38, R42, R43). -/
inductive Selection where
  /-- outside the window: the access does not reach the block -/
  | outside
  /-- inside the window but not a 32-bit access at a multiple of 4: a bus error -/
  | busError (off : Offset)
  /-- a 32-bit access at an aligned offset -/
  | hit (off : Offset)
deriving DecidableEq, Repr

/-- The address lies in `[BASE, BASE + 0x2000)` (R38). -/
def inWindow (p : Platform) (addr : Nat) : Bool :=
  p.base ≤ addr && addr < p.base + Config.windowSize

/-- `off = addr - BASE` (R38). -/
def offsetOf (p : Platform) (addr : Nat) : Offset := BitVec.ofNat 13 (addr - p.base)

/-- The address of an offset: `BASE + off` (R62). -/
def addrOf (p : Platform) (off : Nat) : Nat := p.base + off

/-- How the block answers an access of this width at this address (R38, R42, R43). -/
def select (p : Platform) (addr : Nat) (width : Width) : Selection :=
  if inWindow p addr then
    if width = .word ∧ (offsetOf p addr).toNat % 4 = 0 then .hit (offsetOf p addr) else .busError (offsetOf p addr)
  else .outside

/-- The offset addresses a word `w < NW` of an operand register (R40). -/
def State.isOperandWord (s : State) (off : Offset) : Bool :=
  inOperandWindow off && offsetWord off < s.plat.nw

/-- The read returns an unspecified value: a word `w < NW` of the operand window while BUSY = 1 (R51). -/
def State.readIsFree (s : State) (off : Offset) : Bool := s.isOperandWord off && s.busy

/-- `BusRead(off)` in the operand window (R48): a reserved word reads 0, also while busy; the rest is R51 and R40. -/
def State.readOperandWindow (s : State) (off : Offset) : Word :=
  if s.isOperandWord off then
    if s.busy then Config.busyRead s.draws
    else operandWord (s.readReg (offsetReg off)) (offsetWord off)
  else 0#32

/-- `BusRead(off)` (R48); every offset without a register reads 0 (R41). -/
def State.busRead (s : State) (off : Offset) : Word :=
  if off = 0x000#13 then Config.idValue
  else if off = 0x004#13 then s.cfgValue
  else if off = 0x008#13 then s.ctrlValue
  else if off = 0x00C#13 then s.statusValue
  else if off = 0x010#13 then s.cmd
  else if off = 0x014#13 then s.cmdcnt
  else if inOperandWindow off then s.readOperandWindow off
  else 0#32

/-- `CtrlWrite(v)` (R27): bit 1 set performs the soft reset whatever bit 0 is. -/
def State.ctrlWrite (s : State) (d : Word) : State := if d.getLsbD 1 then s.softReset else s.setIe d

/-- A write of `CMD` (R30, R49): refused while busy, else the acceptance of a command. -/
def State.cmdWrite (s : State) (d : Word) : State := if s.busy then s.refuseAccess else s.accept d

/-- A write in the operand window (R49, R50): refused while busy, reserved words included (R41); else word `w < NW` is
replaced. -/
def State.operandWrite (s : State) (off : Offset) (d : Word) : State :=
  if s.busy then s.refuseAccess
  else if offsetWord off < s.plat.nw then s.writeRegWord (offsetReg off) (offsetWord off) d
  else s

/-- `BusWrite(off, v)` (R49). -/
def State.busWrite (s : State) (off : Offset) (d : Word) : State :=
  if off = 0x008#13 then s.ctrlWrite d
  else if off = 0x00C#13 then s.statusWrite d
  else if off = 0x010#13 then s.cmdWrite d
  else if inOperandWindow off then s.operandWrite off d
  else s

/-- The host gets an answer; the block is unchanged. -/
def State.respond (s : State) (r : Response) : State := { s with resp := r }

/-- A free value has been used; the next one is another (R51). -/
def State.draw (s : State) : State := { s with draws := s.draws + 1 }

/-- A read of the host: the value of R48, and nothing changes in the block (R53). -/
def State.hostRead (s : State) (off : Offset) : State :=
  if s.readIsFree off then (s.respond (.data (s.busRead off))).draw else s.respond (.data (s.busRead off))

/-- A write of the host (R49). -/
def State.hostWrite (s : State) (off : Offset) (d : Word) : State := (s.busWrite off d).respond .ack

/-- One access of the host, one step (R52, R56). A bus error is a fault of the host's access (R43); an access outside the
window does not reach the block (R38). -/
def hostAccess (op : HostOp) (s : State) : Host.Outcome State Fault Refusal :=
  match op with
  | .read addr width =>
    match select s.plat addr width with
    | .hit off => .next (s.hostRead off)
    | .busError off => .fault (.busError off)
    | .outside => .next (s.respond .notSelected)
  | .write addr width d =>
    match select s.plat addr width with
    | .hit off => .next (s.hostWrite off d)
    | .busError off => .fault (.busError off)
    | .outside => .next (s.respond .notSelected)
  | .fetch addr =>
    if inWindow s.plat addr then .fault (.busError (offsetOf s.plat addr)) else .next (s.respond .notSelected)

end Sys2Proof.Machine
end

