-- ==== Sys2Proof/Machine/Arith.lean ====
section
/-! DEFINITION. The number theory the commands compute with, on naturals and exact (R5, R11, R12). A command's result is a
number; the algorithms here only compute it (R24, 93 U5), and Sys2Proof/Laws/Arith.lean proves that they do. -/

namespace Sys2Proof.Machine

/-- Repeated squaring over the exponent's bits `fuel - 1` down to 0, from the accumulator `acc` (R95's scan). -/
def powModFuel (n a : Nat) : Nat → Nat → Nat → Nat
  | 0, _, acc => acc
  | fuel + 1, e, acc =>
    if e.testBit fuel then powModFuel n a fuel e (acc * acc % n * a % n)
    else powModFuel n a fuel e (acc * acc % n)

/-- `(a ^ e) mod n`, the exact power with `a ^ 0 = 1` (R12, R90), scanning the exponent's bits from the top (R95). -/
def powMod (a e n : Nat) : Nat := powModFuel n a (e.log2 + 1) e (1 % n)

/-- The extended Euclidean algorithm of R103: from `(r0, r1, t0, t1)` to the gcd and its signed coefficient. -/
def extEuclid : Nat → Nat → Nat → Int → Int → Nat × Int
  | 0, r0, _, t0, _ => (r0, t0)
  | fuel + 1, r0, r1, t0, t1 =>
    if r1 = 0 then (r0, t0) else extEuclid fuel r1 (r0 % r1) t1 (t0 - (r0 / r1 : Nat) * t1)

/-- `inv(a, m)`: for `m >= 2` and `gcd(a, m) = 1` the unique `x` with `1 <= x < m` and `(a * x) mod m = 1` (R12). -/
def modInv (a m : Nat) : Nat := ((extEuclid (m + 1) m (a % m) 0 1).2 % (m : Int)).toNat

/-- The Montgomery radix `R = 2^OPW` (R84). -/
def montRadix (opw : Nat) : Nat := 2 ^ opw

/-- `Rinv = inv(R mod N, N)` (R12, R84). -/
def montRadixInv (opw n : Nat) : Nat := modInv (montRadix opw % n) n

/-- The Montgomery product `(a * b * Rinv) mod N` (R85). -/
def montProduct (opw n a b : Nat) : Nat := a * b * montRadixInv opw n % n

/-- `(a * R) mod N` (R86). -/
def toMontgomery (opw n a : Nat) : Nat := a * montRadix opw % n

/-- `(a * Rinv) mod N` (R87). -/
def fromMontgomery (opw n a : Nat) : Nat := a * montRadixInv opw n % n

/-- `h : l = h * 2^OPW + l` (R11, R97). -/
def concatHalves (opw h l : Nat) : Nat := h * 2 ^ opw + l

end Sys2Proof.Machine
end

