-- ==== Sys2Proof/Machine/Barrett.lean ====
section
/-! DEFINITION. The Barrett modular reducer: MODMUL and MODRED (43_barrett.md). -/

namespace Sys2Proof.Machine

/-- MODMUL (R96): `x[RD] <- (a * b) mod N`, any OPW-bit operands. -/
def execModmul (rd rs1 rs2 : Reg) (s : State) : Host.Outcome State Fault Refusal :=
  .next (s.complete (s.withModulus fun n =>
    .ok (s.writeReg rd (s.readReg rs1 * s.readReg rs2 % n))))

/-- MODRED (R97): `x[RD] <- (h * 2^OPW + l) mod N`, `h` from RS1 and `l` from RS2. -/
def execModred (rd rs1 rs2 : Reg) (s : State) : Host.Outcome State Fault Refusal :=
  .next (s.complete (s.withModulus fun n =>
    .ok (s.writeReg rd (concatHalves s.plat.opw (s.readReg rs1) (s.readReg rs2) % n))))

end Sys2Proof.Machine
end

