-- ==== Sys2Proof/Machine/Control.lean ====
section
/-! DEFINITION. The control and data-movement commands NOP, MOV, LDI and SETMOD (40_control.md). A meaning is the completion
step of the command in flight (R78, R105). -/

namespace Sys2Proof.Machine

/-- NOP (R80): no operation. -/
def execNop (s : State) : Host.Outcome State Fault Refusal := .next (s.complete (.ok s))

/-- MOV (R81): `x[RD] <- x[RS1]`. -/
def execMov (rd rs1 : Reg) (s : State) : Host.Outcome State Fault Refusal :=
  .next (s.complete (.ok (s.writeReg rd (s.readReg rs1))))

/-- LDI (R82): `x[RD] <- zext_OPW(IMM20)`. -/
def execLdi (rd : Reg) (imm : Nat) (s : State) : Host.Outcome State Fault Refusal :=
  .next (s.complete (.ok (s.writeReg rd (zextImm imm))))

/-- `n mod 2 == 0 or n < 3`: the moduli SETMOD turns away (R83). -/
def badModulus (n : Nat) : Bool := n % 2 == 0 || n < 3

/-- SETMOD (R83): load the modulus context, or BADMOD. -/
def execSetmod (rs1 : Reg) (s : State) : Host.Outcome State Fault Refusal :=
  .next (s.complete
    (if badModulus (s.readReg rs1) then .error .badmod else .ok (s.loadModulus (s.readReg rs1))))

end Sys2Proof.Machine
end

