-- ==== Sys2Proof/Machine/Gcd.lean ====
section
/-! DEFINITION. The GCD / extended-GCD datapath: GCD and MODINV (44_gcd.md). Neither uses the modulus register (R22). -/

namespace Sys2Proof.Machine

/-- GCD (R100): `x[RD] <- gcd(a, b)`, with `gcd(0, 0) = 0`. -/
def execGcd (rd rs1 rs2 : Reg) (s : State) : Host.Outcome State Fault Refusal :=
  .next (s.complete (.ok (s.writeReg rd (Nat.gcd (s.readReg rs1) (s.readReg rs2)))))

/-- Execute of MODINV on the value `a` and the modulus `m` (R101). -/
def inverseResult (a m : Nat) : Except CmdError Nat :=
  if m < 2 then .error .range
  else if Nat.gcd (a % m) m ≠ 1 then .error .noinv
  else .ok (modInv (a % m) m)

/-- MODINV (R101): `x[RD] <- inv(a mod m, m)`; RANGE when `m < 2`, NOINV when `gcd(a, m) != 1`. -/
def execModinv (rd rs1 rs2 : Reg) (s : State) : Host.Outcome State Fault Refusal :=
  .next (s.complete ((inverseResult (s.readReg rs1) (s.readReg rs2)).map (s.writeReg rd)))

end Sys2Proof.Machine
end

