-- ==== Sys2Proof/Machine/Modexp.lean ====
section
/-! DEFINITION. The modular exponentiation engine: MODEXP and MODEXP.CHK (42_modexp.md). -/

namespace Sys2Proof.Machine

/-- MODEXP, CHK = 0 (R90): `x[RD] <- (a ^ e) mod N`; RANGE when `a >= N`. Every exponent is legal. -/
def execModexp (rd rs1 rs2 : Reg) (s : State) : Host.Outcome State Fault Refusal :=
  .next (s.complete (s.withModulus fun n =>
    if n ≤ s.readReg rs1 then .error .range
    else .ok (s.writeReg rd (powMod (s.readReg rs1) (s.readReg rs2) n))))

/-- MODEXP.CHK, CHK = 1 (R91): as MODEXP, but PTRANGE when `a = 0` or `a >= N`. -/
def execModexpChk (rd rs1 rs2 : Reg) (s : State) : Host.Outcome State Fault Refusal :=
  .next (s.complete (s.withModulus fun n =>
    if s.readReg rs1 = 0 ∨ n ≤ s.readReg rs1 then .error .ptrange
    else .ok (s.writeReg rd (powMod (s.readReg rs1) (s.readReg rs2) n))))

end Sys2Proof.Machine
end

