-- ==== Sys2Proof/Machine/Montgomery.lean ====
section
/-! DEFINITION. The Montgomery multiplier: MONTMUL, TOMONT and FROMMONT (41_montgomery.md). -/

namespace Sys2Proof.Machine

/-- MONTMUL (R85): `x[RD] <- (a * b * Rinv) mod N`; RANGE when `a >= N` or `b >= N`. -/
def execMontmul (rd rs1 rs2 : Reg) (s : State) : Host.Outcome State Fault Refusal :=
  .next (s.complete (s.withModulus fun n =>
    if n ≤ s.readReg rs1 ∨ n ≤ s.readReg rs2 then .error .range
    else .ok (s.writeReg rd (montProduct s.plat.opw n (s.readReg rs1) (s.readReg rs2)))))

/-- TOMONT (R86): `x[RD] <- (a * R) mod N`; RANGE when `a >= N`. -/
def execTomont (rd rs1 : Reg) (s : State) : Host.Outcome State Fault Refusal :=
  .next (s.complete (s.withModulus fun n =>
    if n ≤ s.readReg rs1 then .error .range
    else .ok (s.writeReg rd (toMontgomery s.plat.opw n (s.readReg rs1)))))

/-- FROMMONT (R87): `x[RD] <- (a * Rinv) mod N`; RANGE when `a >= N`. -/
def execFrommont (rd rs1 : Reg) (s : State) : Host.Outcome State Fault Refusal :=
  .next (s.complete (s.withModulus fun n =>
    if n ≤ s.readReg rs1 then .error .range
    else .ok (s.writeReg rd (fromMontgomery s.plat.opw n (s.readReg rs1)))))

end Sys2Proof.Machine
end

