-- ==== Sys2Proof/Machine/Dispatch.lean ====
section
/-! DEFINITION. `exec`: the completion step of the command in flight, one arm per row of the opcode map (R72, R105). -/

namespace Sys2Proof.Machine

def exec (i : Instr) (s : State) : Host.Outcome State Fault Refusal :=
  match i with
  | .nop => Sys2Proof.Machine.execNop s
  | .mov rd rs1 => Sys2Proof.Machine.execMov rd rs1 s
  | .ldi rd imm => Sys2Proof.Machine.execLdi rd imm s
  | .setmod rs1 => Sys2Proof.Machine.execSetmod rs1 s
  | .montmul rd rs1 rs2 => Sys2Proof.Machine.execMontmul rd rs1 rs2 s
  | .tomont rd rs1 => Sys2Proof.Machine.execTomont rd rs1 s
  | .frommont rd rs1 => Sys2Proof.Machine.execFrommont rd rs1 s
  | .modexp rd rs1 rs2 => Sys2Proof.Machine.execModexp rd rs1 rs2 s
  | .modexpChk rd rs1 rs2 => Sys2Proof.Machine.execModexpChk rd rs1 rs2 s
  | .modmul rd rs1 rs2 => Sys2Proof.Machine.execModmul rd rs1 rs2 s
  | .modred rd rs1 rs2 => Sys2Proof.Machine.execModred rd rs1 rs2 s
  | .gcd rd rs1 rs2 => Sys2Proof.Machine.execGcd rd rs1 rs2 s
  | .modinv rd rs1 rs2 => Sys2Proof.Machine.execModinv rd rs1 rs2 s

end Sys2Proof.Machine
end

