-- ==== Sys2Proof/Machine/Turn.lean ====
section
/-! DEFINITION. One turn of one agent: the engine's completion of the command in flight (R105), an access of the host, or
the reset input. -/

namespace Sys2Proof.Machine

/-- `Complete()` (R105): decode the accepted word and execute it; a word that decodes to no row completes with ILLEGAL
(R72, R73). -/
def completeCommand (s : State) : Host.Outcome State Fault Refusal :=
  match decode s.cmd with
  | some i => exec i s
  | none => .next (s.complete (.error .illegal))

/-- The engine's turn: while `BUSY = 1` its one step is the completion; while `BUSY = 0` it has none and nothing changes
(R105, R124). -/
def engineTurn (s : State) : Host.Outcome State Fault Refusal :=
  if s.busy then completeCommand s else .next s

/-- The turn of whoever's turn it is (R18, R118). -/
def takeTurn (t : Turn) (s : State) : Host.Outcome State Fault Refusal :=
  match t with
  | .host op => hostAccess op s
  | .engine => engineTurn s
  | .rst => .next s.hardReset

/-- The next turn: the first of the agenda, which it leaves; when the agenda is empty the host does nothing more and the
engine's step is the only one there is (R135). -/
def nextTurn (s : State) : Host.Outcome State Fault Refusal :=
  match s.agenda with
  | [] => engineTurn s
  | t :: rest => takeTurn t { s with agenda := rest }

/-- `w` accepted as the command in flight, and the engine's turn next: what a host's `CMD` write and a completion that
follows it at once amount to (R104, R134). -/
def State.withCommand (s : State) (w : Word) : State :=
  { s.accept w with agenda := .engine :: s.agenda }

end Sys2Proof.Machine
end

