-- ==== Sys2Proof/Machine/Step.lean ====
section
/-! DEFINITION. One step of the machine: one turn, on a platform the spec admits. -/

namespace Sys2Proof.Machine

/-- One step: the next turn (R18). A platform outside R4, R8 or R61 is refused. -/
def step (s : State) : Host.Outcome State Fault Refusal :=
  if s.plat.legal then nextTurn s else .refused .excludedPlatform

/-- `s` with the table word `w` of `nbits` bits as the accepted command and the engine's turn next, so that the very next
step decodes and executes exactly it. The block never fetches (R34, R60): its instruction input is the word of a `CMD`
write (notes/assumptions/13.md). -/
def State.withFetchWord (s : State) (nbits w : Nat) : State := s.withCommand (BitVec.ofNat 32 (w % 2 ^ nbits))

end Sys2Proof.Machine
end

