-- ==== Sys2Proof/Machine/Assembler.lean ====
section
/-! DEFINITION. The assembler syntax of R75 and the pseudo-instructions of R76: from a line of text to a command, and from a
command word back to a line. A tool of the host's; the block sees command words only (R64). -/

namespace Sys2Proof.Machine

/-- An operand of a line: a register `v0` to `v7`, or an immediate (R75). -/
inductive AsmOperand where
  | reg (r : Reg)
  | imm (k : Nat)
deriving DecidableEq, Repr

/-- `vd, va, vb` lines (R75). -/
def assembleThree (mn : List Char) (d a b : Reg) : Option Instr :=
  if mn = "montmul".toList then some (.montmul d a b)
  else if mn = "modexp".toList then some (.modexp d a b)
  else if mn = "modexp.chk".toList then some (.modexpChk d a b)
  else if mn = "modmul".toList then some (.modmul d a b)
  else if mn = "modred".toList then some (.modred d a b)
  else if mn = "gcd".toList then some (.gcd d a b)
  else if mn = "modinv".toList then some (.modinv d a b)
  else if mn = "encrypt".toList then some (.modexpChk d a b)
  else if mn = "decrypt".toList then some (.modexp d a b)
  else none

/-- `vd, va` lines (R75, R76). -/
def assembleTwo (mn : List Char) (d a : Reg) : Option Instr :=
  if mn = "mov".toList then some (.mov d a)
  else if mn = "tomont".toList then some (.tomont d a)
  else if mn = "frommont".toList then some (.frommont d a)
  else if mn = "montsq".toList then some (.montmul d a a)
  else if mn = "modsq".toList then some (.modmul d a a)
  else none

/-- Lines of one register (R75, R76). -/
def assembleOne (mn : List Char) (a : Reg) : Option Instr :=
  if mn = "setmod".toList then some (.setmod a)
  else if mn = "clr".toList then some (.ldi a 0)
  else if mn = "one".toList then some (.ldi a 1)
  else none

/-- The command a mnemonic and its operands stand for; `none` where the assembler rejects the line. An immediate of `2^20` or
more is rejected (R75). -/
def assembleOperands (mn : List Char) (ops : List AsmOperand) : Option Instr :=
  match ops with
  | [] => if mn = "nop".toList then some .nop else none
  | [.reg a] => assembleOne mn a
  | [.reg d, .reg a] => assembleTwo mn d a
  | [.reg d, .imm k] => if mn = "ldi".toList ∧ immFits k then some (.ldi d k) else none
  | [.reg d, .reg a, .reg b] => assembleThree mn d a b
  | _ => none

/-- The value of a digit character in base 16. -/
def digitValue (c : Char) : Option Nat :=
  let k := c.toNat
  if 48 ≤ k ∧ k ≤ 57 then some (k - 48)
  else if 97 ≤ k ∧ k ≤ 102 then some (k - 87)
  else if 65 ≤ k ∧ k ≤ 70 then some (k - 55)
  else none

/-- A numeral in the given base, most significant digit first, read onto `acc`. -/
def numeralFrom (base : Nat) : List Char → Nat → Option Nat
  | [], acc => some acc
  | c :: cs, acc =>
    match digitValue c with
    | some d => if d < base then numeralFrom base cs (acc * base + d) else none
    | none => none

/-- An immediate in decimal or `0x` hexadecimal (R75). DESIGN CHOICE: leading zeros are taken, and hexadecimal digits
in either case (notes/assumptions/26.md). -/
def parseNumeral (cs : List Char) : Option Nat :=
  match cs with
  | [] => none
  | '0' :: 'x' :: d :: ds => numeralFrom 16 (d :: ds) 0
  | c :: ds => numeralFrom 10 (c :: ds) 0

/-- An operand: `v0` to `v7`, or an immediate (R75). -/
def parseOperand (cs : List Char) : Option AsmOperand :=
  match cs with
  | ['v', c] => (digitValue c).bind fun d => if h : d < 8 then some (.reg ⟨d, h⟩) else none
  | _ => (parseNumeral cs).map .imm

/-- The text between commas, without its blanks (DESIGN CHOICE, notes/assumptions/26.md). -/
def splitCommas : List Char → List Char → List (List Char)
  | [], cur => [cur.reverse]
  | c :: cs, cur =>
    if c = ',' then cur.reverse :: splitCommas cs []
    else if c = ' ' then splitCommas cs cur
    else splitCommas cs (c :: cur)

/-- One command per line: the mnemonic in lower case, then the operands separated by commas (R75). DESIGN CHOICE, where R75 says
nothing of blanks (notes/assumptions/26.md): the mnemonic ends at the first blank and blanks after it are dropped; so a line
that begins with a blank is rejected, and so is an operand-less mnemonic (`nop`) followed by one. Only a space is a blank. -/
def assembleLine (line : List Char) : Option Instr :=
  match line.dropWhile (· ≠ ' ') with
  | [] => assembleOperands line []
  | rest => ((splitCommas rest []).mapM parseOperand).bind (assembleOperands (line.takeWhile (· ≠ ' ')))

/-- `v0` to `v7` (R75). -/
def regText (r : Reg) : String := "v" ++ toString r.val

/-- The operands of a command as R75 writes them, immediates in decimal. -/
def operandTexts : Instr → List String
  | .nop => []
  | .mov d a => [regText d, regText a]
  | .ldi d imm => [regText d, toString imm]
  | .setmod a => [regText a]
  | .montmul d a b => [regText d, regText a, regText b]
  | .tomont d a => [regText d, regText a]
  | .frommont d a => [regText d, regText a]
  | .modexp d a b => [regText d, regText a, regText b]
  | .modexpChk d a b => [regText d, regText a, regText b]
  | .modmul d a b => [regText d, regText a, regText b]
  | .modred d a b => [regText d, regText a, regText b]
  | .gcd d a b => [regText d, regText a, regText b]
  | .modinv d a b => [regText d, regText a, regText b]

/-- The line of a command (R75). -/
def instrText (i : Instr) : String :=
  match operandTexts i with
  | [] => i.mnemonic
  | ops => i.mnemonic ++ " " ++ ", ".intercalate ops

/-- A hexadecimal digit, in capitals. -/
def hexDigit (k : Nat) : Char := if k < 10 then Char.ofNat (48 + k) else Char.ofNat (55 + k)

/-- `0xXXXXXXXX`: the eight hexadecimal digits of a word, most significant first (R10). -/
def wordText (w : Word) : String :=
  "0x" ++ String.ofList ((List.range 8).reverse.map fun k => hexDigit (w.toNat / 16 ^ k % 16))

/-- A word's disassembly: its command's line, or `.word 0xXXXXXXXX` where it decodes to no row (R75). -/
def disassemble (w : Word) : String :=
  match decode w with
  | some i => instrText i
  | none => ".word " ++ wordText w

end Sys2Proof.Machine
end

