-- ==== Sys2Proof/Machine/Datapath.lean ====
section
/-! DEFINITION. The spec's informative datapaths (R89, R95, R99, R103) and the hidden constants they derive from `N` (R24). They
are not normative and no meaning calls them; statements compare their results with the commands' numbers. -/

namespace Sys2Proof.Machine

/-- The hidden constant `NINV = (-inv(N mod 2^32, 2^32)) mod 2^32` (R89). -/
def montNinv (n : Nat) : Nat := (2 ^ 32 - modInv (n % 2 ^ 32) (2 ^ 32)) % 2 ^ 32

/-- `(t + m * N) div 2^32`, with `m` chosen so that the low word of the sum is 0 (R89). -/
def montReduceWord (n t : Nat) : Nat := (t + t % 2 ^ 32 * montNinv n % 2 ^ 32 * n) / 2 ^ 32

/-- One turn of R89's loop: `t` and word `i` of `a`. -/
def montWordStep (n a b t i : Nat) : Nat := montReduceWord n (t + slice a (32 * i + 31) (32 * i) * b)

/-- R89's loop over the `nw` words of `a`. -/
def montWordLoop (nw n a b : Nat) : Nat := (List.range nw).foldl (montWordStep n a b) 0

/-- `if t >= N: t = t - N` (R89, R99). -/
def correctOnce (n t : Nat) : Nat := if n ≤ t then t - n else t

/-- The word-serial Montgomery multiplication (R89). -/
def montDatapath (nw n a b : Nat) : Nat := correctOnce n (montWordLoop nw n a b)

/-- One turn of R95's loop: square, and multiply by the base's Montgomery form where the exponent's bit is 1. -/
def modexpBitStep (opw n am e acc i : Nat) : Nat :=
  if e.testBit i then montProduct opw n (montProduct opw n acc acc) am else montProduct opw n acc acc

/-- Left-to-right binary exponentiation on the Montgomery multiplier, bits OPW-1 down to 0 (R95). -/
def modexpDatapath (opw n a e : Nat) : Nat :=
  montProduct opw n
    ((List.range opw).reverse.foldl (modexpBitStep opw n (toMontgomery opw n a) e) (montRadix opw % n)) 1

/-- The hidden constant `MU = 2^(2*OPW) div N` (R99). -/
def barrettMu (opw n : Nat) : Nat := 2 ^ (2 * opw) / n

/-- Barrett's estimate of the quotient (R99). -/
def barrettQuotient (opw n x : Nat) : Nat := x * barrettMu opw n / 2 ^ (2 * opw)

/-- Barrett reduction with one correction (R99). -/
def barrettDatapath (opw n x : Nat) : Nat := correctOnce n (x - barrettQuotient opw n x * n)

/-- `while a even: a = a/2`, in at most `fuel` turns (R103). -/
def stripTwos : Nat → Nat → Nat
  | 0, a => a
  | fuel + 1, a => if a % 2 = 0 then stripTwos fuel (a / 2) else a

/-- `while b != 0`: strip, order, subtract (R103); `a` is odd. -/
def steinLoop : Nat → Nat → Nat → Nat
  | 0, a, _ => a
  | fuel + 1, a, b =>
    if b = 0 then a
    else if stripTwos b b < a then steinLoop fuel (stripTwos b b) (a - stripTwos b b)
    else steinLoop fuel a (stripTwos b b - a)

/-- `while a, b both even: a = a/2; b = b/2; s = s+1`, then the odd part of the algorithm and `a * 2^s` (R103). -/
def steinShared : Nat → Nat → Nat → Nat
  | 0, a, b => steinLoop (a + b) (stripTwos a a) b
  | fuel + 1, a, b =>
    if a % 2 = 0 ∧ b % 2 = 0 then steinShared fuel (a / 2) (b / 2) * 2 else steinLoop (a + b) (stripTwos a a) b

/-- The binary (Stein) algorithm (R103). -/
def binaryGcd (a b : Nat) : Nat := if a = 0 then b else if b = 0 then a else steinShared a a b

/-- `ExtInv(a, m)` of R103: `none` for NOINV. -/
def extInv (a m : Nat) : Option Nat :=
  if (extEuclid (m + 1) m (a % m) 0 1).1 = 1 then some (((extEuclid (m + 1) m (a % m) 0 1).2 % (m : Int)).toNat)
  else none

end Sys2Proof.Machine
end

