-- ==== Sys2Proof/Machine/HostProgram.lean ====
section
/-! DEFINITION. The notation of host programs (R17): W, R, CMD, WV and POLL as turns of the agenda, and the wider transfers
that the block sees as sequences of 32-bit accesses (R42). -/

namespace Sys2Proof.Machine

/-- `W off, value`: `MemWrite(BASE + off, 4, value)` (R17). -/
def hostW (p : Platform) (off : Nat) (d : Word) : Turn := .host (.write (addrOf p off) .word d)

/-- `R off`: `MemRead(BASE + off, 4)` (R17). -/
def hostR (p : Platform) (off : Nat) : Turn := .host (.read (addrOf p off) .word)

/-- `CMD word` abbreviates `W 0x010, word` (R17). -/
def hostCmd (p : Platform) (w : Word) : Turn := hostW p 0x010 w

/-- One read of `STATUS`; `POLL` repeats it until bit 0 reads 0 (R17). -/
def hostPoll (p : Platform) : Turn := hostR p 0x00C

/-- `WV i, value`: the `NW` writes of `value` to `Vi`, least significant word first (R17, R40). -/
def hostWV (p : Platform) (r : Reg) (value : Nat) : List Turn :=
  (List.range p.nw).map fun w => hostW p (operandOffset r w) (operandWord value w)

/-- A wider read of `k` words: 32-bit reads in increasing address order (R42). -/
def wideRead (addr k : Nat) : List Turn := (List.range k).map fun j => .host (.read (addr + 4 * j) .word)

/-- A wider write: 32-bit writes of its words in increasing address order (R42). -/
def wideWrite (addr : Nat) (ds : List Word) : List Turn :=
  ds.zipIdx.map fun p => .host (.write (addr + 4 * p.2) .word p.1)

end Sys2Proof.Machine
end

