-- ==== Sys2Proof/Safety.lean ====
section
/-! DEFINITION. What counts as a sound state and a safe run, in the terms claims use: the invariant of the machine, the reads of
never-written registers and the strict machine that faults on them (R21), the hazard the host must respect (R131), and the
turns that let an accepted command complete (R135). -/

namespace Sys2Proof.Machine

/-- The invariant. Legal parameters (R4, R8, R61); every operand register and `N` below `2^OPW` (R4, R19, R22); a loaded modulus
is odd and at least 3 (R23, R83); `BUSY = 1` implies `DONE = 0` and `ERR = 0` (R29); `ERR` is a code of R108; the
unwritten words are words of the register. -/
abbrev State.Inv (s : State) : Prop :=
  s.plat.legal = true ∧
  (∀ r : Reg, s.readReg r < 2 ^ s.plat.opw) ∧
  s.n < 2 ^ s.plat.opw ∧
  (s.mv = true → s.n % 2 = 1 ∧ 3 ≤ s.n) ∧
  (s.busy = true → s.done = false ∧ s.err = 0#4) ∧
  s.err.toNat ≤ 6 ∧
  (∀ r : Reg, ∀ w ∈ s.unwritten[r.val], w < s.plat.nw)

/-- The operand registers the completion of the command in flight reads. An illegal word reads none, and the check of `MV`
comes before the operands are read (R72, R110 and the pseudocode of R85 to R97). -/
def State.completionReads (s : State) : List Reg :=
  match decode s.cmd with
  | none => []
  | some i => if needsModulus i && !s.mv then [] else sourcesOf i

/-- The operand registers the engine's turn reads. -/
def State.engineReads (s : State) : List Reg := if s.busy then s.completionReads else []

/-- The operand register a 32-bit host read at this offset returns a word of: none while `BUSY = 1`, where the value is
unspecified whatever the register holds (R51). -/
def State.busReads (s : State) (off : Offset) : List Reg :=
  if s.isOperandWord off && !s.busy then [offsetReg off] else []

/-- The operand registers a host access reads. -/
def State.accessReads (s : State) (op : HostOp) : List Reg :=
  match op with
  | .read addr width =>
    match select s.plat addr width with
    | .hit off => s.busReads off
    | .busError _ => []
    | .outside => []
  | .write _ _ _ => []
  | .fetch _ => []

/-- The operand registers the next turn reads (R20, R21). -/
def State.turnReads (s : State) : List Reg :=
  match s.agenda with
  | [] => s.engineReads
  | .engine :: _ => s.engineReads
  | .host op :: _ => s.accessReads op
  | .rst :: _ => []

/-- The machine that R21 and 93 U1 ask for: a turn that reads an operand register which has not been written whole since
hardware reset is a fault, never a value; every other turn is `step`'s, and a platform `step` refuses is refused (R61;
notes/assumptions/8.md). -/
def strictStep (s : State) : Host.Outcome State Fault Refusal :=
  if s.plat.legal then
    match s.turnReads.find? (fun r => !s.regWritten r) with
    | some r => .fault (.unwrittenRead r)
    | none => step s
  else .refused .excludedPlatform

/-- Two states that differ at most in words nobody has written since hardware reset, and in `N` while no modulus is loaded. -/
abbrev State.AgreeOnWritten (s t : State) : Prop :=
  (∀ r : Reg, ∀ w < s.plat.nw, w ∉ s.unwritten[r.val] → operandWord (s.readReg r) w = operandWord (t.readReg r) w) ∧
  (s.mv = true → s.n = t.n) ∧
  { s with v := t.v, n := t.n } = t

/-- Two outcomes that are the same stop, or next states that agree on what has been written. -/
def OutcomesAgree (a b : Host.Outcome State Fault Refusal) : Prop :=
  match a, b with
  | .next s, .next t => s.AgreeOnWritten t
  | .fault f, .fault g => f = g
  | .refused f, .refused g => f = g
  | _, _ => False

/-- The access is one that R131 says the host must not make while a command is in flight: a write of `CMD` or of the operand
window, or a read of the operand window. -/
def hazardOffset (op : HostOp) (off : Offset) : Bool :=
  match op with
  | .read _ _ => inOperandWindow off
  | .write _ _ _ => off = 0x010#13 || inOperandWindow off
  | .fetch _ => false

/-- The width of an access. -/
def accessWidth : HostOp → Width
  | .read _ width => width
  | .write _ width _ => width
  | .fetch _ => .word

/-- The address of an access. -/
def accessAddr : HostOp → Nat
  | .read addr _ => addr
  | .write addr _ _ => addr
  | .fetch addr => addr

/-- The one hazard of R131: the host's next access touches `CMD` by a write, or the operand window, while `BUSY = 1`. -/
def State.hazard (s : State) : Bool :=
  match s.agenda with
  | .host op :: _ =>
    s.busy &&
      match select s.plat (accessAddr op) (accessWidth op) with
      | .hit off => hazardOffset op off
      | .busError _ => false
      | .outside => false
  | _ => false

/-- The access performs a soft reset: a 32-bit write of `CTRL` with bit 1 set (R27, R126). -/
def softResets (p : Platform) (op : HostOp) : Bool :=
  match op with
  | .write addr width d => select p addr width == .hit 0x008#13 && d.getLsbD 1
  | .read _ _ => false
  | .fetch _ => false

/-- The access gets a bus error (R43). -/
def busErrors (p : Platform) (op : HostOp) : Bool :=
  match op with
  | .fetch addr => inWindow p addr
  | .read addr width =>
    match select p addr width with
    | .busError _ => true
    | _ => false
  | .write addr width _ =>
    match select p addr width with
    | .busError _ => true
    | _ => false

/-- The turn neither abandons the command in flight (a reset, R106) nor stops the run (a bus error). -/
def quietTurn (p : Platform) : Turn → Bool
  | .engine => true
  | .rst => false
  | .host op => !softResets p op && !busErrors p op

end Sys2Proof.Machine
end

