-- ==== Sys2Proof/Certificates/Slice0/Obligations.lean ====
section
/-! DEFINITION. The statements for the provers: `def Obligations.<Name> : Prop`, each named after what it states and citing the rule
of spec/ it comes from. `Sys2Proof.Expect` holds what the rules expect, written as data from the rules' own words. -/

namespace Sys2Proof.Expect

open Sys2Proof.Machine

/-! What a completion leaves (R78, R105, R111). -/

/-- A completion without an error that wrote nothing: `BUSY <- 0`, `DONE <- 1`, `ERR <- 0`, `CMDCNT` incremented. -/
def finished (s : State) : State := { s with busy := false, done := true, err := 0#4, cmdcnt := s.cmdcnt + 1#32 }

/-- A completion with the error `code`: nothing else is written (R112). -/
def failed (s : State) (code : BitVec 4) : State :=
  { s with busy := false, done := true, err := code, cmdcnt := s.cmdcnt + 1#32 }

/-- A completion without an error that wrote `x` into the register `rd`, whole (R21). -/
def wrote (s : State) (rd : Reg) (x : Nat) : State :=
  { s with
    v := s.v.set rd.val x
    unwritten := s.unwritten.set rd.val []
    busy := false
    done := true
    err := 0#4
    cmdcnt := s.cmdcnt + 1#32 }

/-- A completion without an error that loaded the modulus `m` (R83). -/
def loaded (s : State) (m : Nat) : State :=
  { s with n := m, mv := true, busy := false, done := true, err := 0#4, cmdcnt := s.cmdcnt + 1#32 }

/-- The commands one after another, each to completion (R58); `none` if one of them stops. -/
def runAll : List Instr → State → Option State
  | [], s => some s
  | i :: is, s =>
    match exec i s with
    | .next t => runAll is t
    | .fault _ => none
    | .refused _ => none

/-! Encodings. -/

/-- Every word whose OP field is `op` decodes to `build` of it when it matches, and to nothing (ILLEGAL) when it does not: what a
command's "Encoding" and its exception ILLEGAL say (R70, R73). -/
def opRow (op mask pattern : Word) (build : Word → Instr) : Prop :=
  ∀ w : Word, w &&& 0x000000FF#32 = op → decode w = if w &&& mask = pattern then some (build w) else none

/-- The table of R70: mnemonic, mask, match. -/
def table : List (String × Word × Word) :=
  [ ("nop", 0xFFFFFFFF#32, 0x00000000#32), ("mov", 0xFFFF88FF#32, 0x00000001#32),
    ("ldi", 0x000008FF#32, 0x00000002#32), ("setmod", 0xFFFF8FFF#32, 0x00000008#32),
    ("montmul", 0xFFF888FF#32, 0x00000010#32), ("tomont", 0xFFFF88FF#32, 0x00000011#32),
    ("frommont", 0xFFFF88FF#32, 0x00000012#32), ("modexp", 0xFFF888FF#32, 0x00000020#32),
    ("modexp.chk", 0xFFF888FF#32, 0x00100020#32), ("modmul", 0xFFF888FF#32, 0x00000030#32),
    ("modred", 0xFFF888FF#32, 0x00000031#32), ("gcd", 0xFFF888FF#32, 0x00000040#32),
    ("modinv", 0xFFF888FF#32, 0x00000041#32) ]

/-- The `OP` field (R65). -/
def op (w : Word) : Nat := w.toNat % 256

/-- A bit of the word where it must be 0 (R73). -/
def reservedR (w : Word) : Bool := w.getLsbD 11 || w.getLsbD 15 || w.getLsbD 19 || w.toNat / 2 ^ 21 != 0

/-- R73, in its own words: an OP that is not one of the 12, or a reserved bit, the CHK bit outside MODEXP, or a register field
that the command does not use. -/
def illegalWord (w : Word) : Bool :=
  let rd := fieldRd w != 0
  let rs1 := fieldRs1 w != 0
  let rs2 := fieldRs2 w != 0
  let chk := w.getLsbD 20
  match op w with
  | 0x00 => reservedR w || chk || rd || rs1 || rs2
  | 0x01 => reservedR w || chk || rs2
  | 0x02 => w.getLsbD 11
  | 0x08 => reservedR w || chk || rd || rs2
  | 0x10 => reservedR w || chk
  | 0x11 => reservedR w || chk || rs2
  | 0x12 => reservedR w || chk || rs2
  | 0x20 => reservedR w
  | 0x30 => reservedR w || chk
  | 0x31 => reservedR w || chk
  | 0x40 => reservedR w || chk
  | 0x41 => reservedR w || chk
  | _ => true

/-- The registers that the RS1 and RS2 fields of a command word name, where its row uses them (R70's "fields used"). -/
def operandFields (w : Word) : List Reg :=
  if op w ∈ [0x01, 0x08, 0x11, 0x12] then [fieldRs1 w]
  else if op w ∈ [0x10, 0x20, 0x30, 0x31, 0x40, 0x41] then [fieldRs1 w, fieldRs2 w]
  else []

/-- The opcodes of the commands that R108's row 2 lists: they complete with NOMOD while no modulus is loaded. -/
def usesModulus (w : Word) : Bool := [0x10, 0x11, 0x12, 0x20, 0x30, 0x31].contains (op w)

/-! The priority of errors (R110). -/

/-- Stage 3: the operand check of a command (R110). -/
def operandCheck (s : State) : Instr → BitVec 4
  | .nop => 0#4
  | .mov _ _ => 0#4
  | .ldi _ _ => 0#4
  | .setmod a => if s.readReg a % 2 = 0 ∨ s.readReg a < 3 then 3#4 else 0#4
  | .montmul _ a b => if s.readReg a ≥ s.n ∨ s.readReg b ≥ s.n then 4#4 else 0#4
  | .tomont _ a => if s.readReg a ≥ s.n then 4#4 else 0#4
  | .frommont _ a => if s.readReg a ≥ s.n then 4#4 else 0#4
  | .modexp _ a _ => if s.readReg a ≥ s.n then 4#4 else 0#4
  | .modexpChk _ a _ => if s.readReg a = 0 ∨ s.readReg a ≥ s.n then 5#4 else 0#4
  | .modmul _ _ _ => 0#4
  | .modred _ _ _ => 0#4
  | .gcd _ _ _ => 0#4
  | .modinv _ _ m => if s.readReg m < 2 then 4#4 else 0#4

/-- Stage 4: NOINV, for MODINV only (R110). -/
def inverseCheck (s : State) : Instr → BitVec 4
  | .modinv _ a m => if Nat.gcd (s.readReg a) (s.readReg m) = 1 then 0#4 else 6#4
  | _ => 0#4

/-- The code the completion of the word in `CMD` reports: the first that applies, in R110's order. -/
def errorCode (s : State) : BitVec 4 :=
  match decode s.cmd with
  | none => 1#4
  | some i =>
    if needsModulus i = true ∧ s.mv = false then 2#4
    else if operandCheck s i ≠ 0#4 then operandCheck s i
    else inverseCheck s i

/-! Turns. -/

/-- The state in which `t` is the next turn and the rest of the agenda follows. -/
def facing (t : Turn) (s : State) : State := { s with agenda := t :: s.agenda }

/-- The next turn completes a command: one is in flight, and it is the engine's turn, or nobody else has one left. -/
def completesNext (s : State) : Bool :=
  s.busy &&
    match s.agenda with
    | [] => true
    | .engine :: _ => true
    | .rst :: _ => false
    | .host _ :: _ => false

/-- The next turn is a reset, by `rst` or by `CTRL.SRST` (R125, R126). -/
def resetsNext (s : State) : Bool :=
  match s.agenda with
  | .rst :: _ => true
  | .host op :: _ => softResets s.plat op
  | _ => false

/-- The next turn is a 32-bit write of the host to word `w < NW` of the register `r` (R40). -/
def writesOperandNext (s : State) (r : Reg) : Prop :=
  ∃ w d rest, w < s.plat.nw ∧ s.agenda = hostW s.plat (operandOffset r w) d :: rest

/-- The next turn writes 1 to `STATUS.OVR` (R28). -/
def clearsOverrunNext (s : State) : Prop :=
  ∃ d rest, d.getLsbD 3 = true ∧ s.agenda = hostW s.plat 0x00C d :: rest

/-- What the soft reset leaves (R126); `m` is what `N` became, `k` the model's counter of free values. -/
def softResetTo (s : State) (m k : Nat) : State :=
  { s with
    ie := false
    busy := false
    done := false
    ovr := false
    err := 0#4
    mv := false
    n := m
    cmd := 0#32
    cmdcnt := 0#32
    draws := k }

/-- A loaded modulus as SETMOD loads one (R83). -/
def goodModulus (n : Nat) : Prop := n % 2 = 1 ∧ 3 ≤ n

end Sys2Proof.Expect

open Sys2Proof Sys2Proof.Machine Sys2Proof.Expect

/-! ## Encoding -/

/-- Decoding the encoding of a well-formed command gives the command back, every operand at every value (R65, R66, R70, R72). -/
def Obligations.DecodeEncodeRoundTrip : Prop := ∀ i : Instr, i.wellFormed = true → decode (encode i) = some i

/-- A word that decodes is the encoding of what it decodes to, and that command is well-formed: no second word names the same
command (R70, R73: strict decoding). -/
def Obligations.DecodedWordIsItsEncoding : Prop :=
  ∀ (w : Word) (i : Instr), decode w = some i → i.wellFormed = true ∧ encode i = w

/-- R70: the map has R70's rows, a word is a row's command exactly when `(w AND mask) = match`, and at most one row matches
any word. -/
def Obligations.OpcodeMapIsExact : Prop :=
  opcodeMap.map (fun r => (r.mnemonic, r.mask, r.pattern)) = table ∧
  (∀ (w : Word), ∀ row ∈ opcodeMap, w &&& row.mask = row.pattern ↔ ∃ i, decode w = some i ∧ i.mnemonic = row.mnemonic) ∧
  (∀ (w : Word), (opcodeMap.filter (fun row => w &&& row.mask == row.pattern)).length ≤ 1)

/-- R73: the words that decode to no row are exactly the ones R73 describes; such a command is accepted like any other and
completes with error code 1, writing nothing. -/
def Obligations.IllegalWordsComplete : Prop :=
  (∀ w : Word, decode w = none ↔ illegalWord w = true) ∧
  ∀ (s : State) (w : Word), s.plat.legal = true → s.busy = false → illegalWord w = true →
    ∃ t, Host.Core.run core 2 (facing (hostCmd s.plat w) (facing .engine s)) = .next t ∧
      t = { failed { s with cmd := w } 1#4 with resp := .ack }

/-- R76 and R77: the spec's pseudo-instructions expand, and its example words decode, as it says. -/
def Obligations.EncodingExamplesDecode : Prop :=
  decode 0x00CA1002#32 = some (.ldi 0 3233) ∧
  decode 0x00000008#32 = some (.setmod 0) ∧
  decode 0x00121320#32 = some (.modexpChk 3 1 2) ∧
  decode 0x00001341#32 = some (.modinv 3 1 0) ∧
  decode 0x00077710#32 = some (.montmul 7 7 7) ∧
  (∀ d a b : Reg,
    assembleOne "clr".toList d = some (.ldi d 0) ∧
    assembleOne "one".toList d = some (.ldi d 1) ∧
    assembleTwo "montsq".toList d a = some (.montmul d a a) ∧
    assembleTwo "modsq".toList d a = some (.modmul d a a) ∧
    assembleThree "encrypt".toList d a b = some (.modexpChk d a b) ∧
    assembleThree "decrypt".toList d a b = some (.modexp d a b))

/-! ## The step and the command lifecycle -/

/-- A step at which a command is in flight and it is the engine's turn, or nobody has a turn left, is `exec` of the command the
word in `CMD` decodes to; with no command in flight the engine's turn changes nothing (R72, R105, R124). -/
def Obligations.StepRunsTheDecodedCommand : Prop :=
  ∀ (s : State), s.plat.legal = true →
    (∀ i, s.busy = true → decode s.cmd = some i → step (facing .engine s) = exec i s) ∧
    (∀ i, s.busy = true → decode s.cmd = some i → s.agenda = [] → step s = exec i s) ∧
    (s.busy = false → step (facing .engine s) = .next s)

/-- R104 and R30: a write of `CMD` while idle stores the word, sets BUSY and clears DONE and ERR, whatever the word, and nothing
else changes; while busy it is refused and `CMD` is unchanged; a read returns the last accepted word. -/
def Obligations.CommandRegister : Prop :=
  ∀ (s : State) (w : Word), s.plat.legal = true →
    (s.busy = false → step (facing (hostCmd s.plat w) s) =
      .next { s with cmd := w, busy := true, done := false, err := 0#4, resp := .ack }) ∧
    (s.busy = true → step (facing (hostCmd s.plat w) s) = .next { s with ovr := true, resp := .ack }) ∧
    step (facing (hostR s.plat 0x010) s) = .next { s with resp := .data s.cmd }

/-- Every command completes, from every state: no error stops the block (R105, R106). The completion clears BUSY, sets DONE, counts,
and reports a code of R108. -/
def Obligations.EveryCommandCompletes : Prop :=
  ∀ (i : Instr) (s : State), ∃ t, exec i s = .next t ∧
    t.busy = false ∧ t.done = true ∧ t.cmdcnt = s.cmdcnt + 1#32 ∧ t.err.toNat ≤ 6

/-- R112: a command that completes with an error writes no operand register, and neither `N` nor `MV`. -/
def Obligations.ErrorsArePrecise : Prop :=
  ∀ (i : Instr) (s t : State), exec i s = .next t → t.err ≠ 0#4 →
    (∀ r, t.readReg r = s.readReg r) ∧ t.n = s.n ∧ t.mv = s.mv ∧ t.unwritten = s.unwritten

/-- The frame of every command: what its completion leaves unchanged. Only the register its RD field names may change (R20); `N`
and `MV` change by SETMOD only (R22); OVR, CTRL.IE, CMD and the parameters never (R78). -/
def Obligations.CommandFrame : Prop :=
  ∀ (i : Instr) (s t : State), exec i s = .next t →
    (∀ r, destOf i ≠ some r → t.readReg r = s.readReg r ∧ t.unwritten[r.val] = s.unwritten[r.val]) ∧
    ((∀ a, i ≠ .setmod a) → t.n = s.n ∧ t.mv = s.mv) ∧
    t.ovr = s.ovr ∧ t.ie = s.ie ∧ t.cmd = s.cmd ∧ t.plat = s.plat ∧ t.agenda = s.agenda ∧ t.resp = s.resp ∧
    t.draws = s.draws

/-- R110: of several errors the completion reports the first in the order ILLEGAL, NOMOD, the operand check, NOINV. -/
def Obligations.ErrorPriority : Prop :=
  ∀ s : State, ∃ t, completeCommand s = .next t ∧ t.err = errorCode s

/-- What a completion commits depends on the operands' values, `N`, `MV` and OPW alone (R36, R92): not on other registers, the
counter, the flags or earlier commands. -/
def Obligations.ResultsDependOnOperandsAlone : Prop :=
  ∀ (i : Instr) (s t : State), (∀ r ∈ sourcesOf i, s.readReg r = t.readReg r) → s.n = t.n → s.mv = t.mv → s.plat.opw = t.plat.opw →
    ∃ s' t', exec i s = .next s' ∧ exec i t = .next t' ∧ s'.err = t'.err ∧ s'.n = t'.n ∧ s'.mv = t'.mv ∧
      (s'.err = 0#4 → ∀ rd, destOf i = some rd → s'.readReg rd = t'.readReg rd)

/-! ## The commands -/

/-- R80: NOP completes and changes nothing else; any other word with OP 0x00 is ILLEGAL. -/
def Obligations.NopOnlyCompletes : Prop :=
  opRow 0x00#32 0xFFFFFFFF#32 0x00000000#32 (fun _ => .nop) ∧ ∀ s : State, exec .nop s = .next (finished s)

/-- R81: MOV copies the whole register, `RD = RS1` included. -/
def Obligations.MovCopiesTheRegister : Prop :=
  opRow 0x01#32 0xFFFF88FF#32 0x00000001#32 (fun w => .mov (fieldRd w) (fieldRs1 w)) ∧
  ∀ (rd rs1 : Reg) (s : State), exec (.mov rd rs1) s = .next (wrote s rd (s.readReg rs1))

/-- R82 and R68: LDI writes its 20-bit immediate zero-extended, so bits OPW-1:20 become 0. -/
def Obligations.LdiLoadsTheImmediate : Prop :=
  opRow 0x02#32 0x000008FF#32 0x00000002#32 (fun w => .ldi (fieldRd w) (w.toNat / 2 ^ 12)) ∧
  ∀ (rd : Reg) (imm : Nat) (s : State), imm < 2 ^ 20 → exec (.ldi rd imm) s = .next (wrote s rd imm)

/-- R83: SETMOD loads an odd modulus of at least 3, and completes with BADMOD on any other, `N` and `MV` kept. -/
def Obligations.SetmodLoadsOrRejects : Prop :=
  opRow 0x08#32 0xFFFF8FFF#32 0x00000008#32 (fun w => .setmod (fieldRs1 w)) ∧
  ∀ (rs1 : Reg) (s : State),
    (goodModulus (s.readReg rs1) → exec (.setmod rs1) s = .next (loaded s (s.readReg rs1))) ∧
    (¬ goodModulus (s.readReg rs1) → exec (.setmod rs1) s = .next (failed s 3#4))

/-- R85: MONTMUL writes `(a * b * Rinv) mod N`, where Rinv is the inverse of `2^OPW mod N` modulo N (R12, R84); NOMOD without a
modulus, RANGE when an operand is not below N. -/
def Obligations.MontmulResult : Prop :=
  opRow 0x10#32 0xFFF888FF#32 0x00000010#32 (fun w => .montmul (fieldRd w) (fieldRs1 w) (fieldRs2 w)) ∧
  ∀ (rd rs1 rs2 : Reg) (s : State),
    (s.mv = false → exec (.montmul rd rs1 rs2) s = .next (failed s 2#4)) ∧
    (s.mv = true → (s.n ≤ s.readReg rs1 ∨ s.n ≤ s.readReg rs2) → exec (.montmul rd rs1 rs2) s = .next (failed s 4#4)) ∧
    (s.mv = true → goodModulus s.n → s.readReg rs1 < s.n → s.readReg rs2 < s.n →
      ∃ rinv, 1 ≤ rinv ∧ rinv < s.n ∧ (2 ^ s.plat.opw % s.n * rinv) % s.n = 1 ∧
        exec (.montmul rd rs1 rs2) s = .next (wrote s rd (s.readReg rs1 * s.readReg rs2 * rinv % s.n)))

/-- R86: TOMONT writes `(a * R) mod N` with `R = 2^OPW`; NOMOD without a modulus, RANGE when `a >= N`. -/
def Obligations.TomontResult : Prop :=
  opRow 0x11#32 0xFFFF88FF#32 0x00000011#32 (fun w => .tomont (fieldRd w) (fieldRs1 w)) ∧
  ∀ (rd rs1 : Reg) (s : State),
    (s.mv = false → exec (.tomont rd rs1) s = .next (failed s 2#4)) ∧
    (s.mv = true → s.n ≤ s.readReg rs1 → exec (.tomont rd rs1) s = .next (failed s 4#4)) ∧
    (s.mv = true → s.readReg rs1 < s.n →
      exec (.tomont rd rs1) s = .next (wrote s rd (s.readReg rs1 * 2 ^ s.plat.opw % s.n)))

/-- R87: FROMMONT writes `(a * Rinv) mod N`; NOMOD without a modulus, RANGE when `a >= N`. -/
def Obligations.FrommontResult : Prop :=
  opRow 0x12#32 0xFFFF88FF#32 0x00000012#32 (fun w => .frommont (fieldRd w) (fieldRs1 w)) ∧
  ∀ (rd rs1 : Reg) (s : State),
    (s.mv = false → exec (.frommont rd rs1) s = .next (failed s 2#4)) ∧
    (s.mv = true → s.n ≤ s.readReg rs1 → exec (.frommont rd rs1) s = .next (failed s 4#4)) ∧
    (s.mv = true → goodModulus s.n → s.readReg rs1 < s.n →
      ∃ rinv, 1 ≤ rinv ∧ rinv < s.n ∧ (2 ^ s.plat.opw % s.n * rinv) % s.n = 1 ∧
        exec (.frommont rd rs1) s = .next (wrote s rd (s.readReg rs1 * rinv % s.n)))

/-- The rows of OP 0x20: CHK chooses between MODEXP and MODEXP.CHK, and a reserved bit makes the word ILLEGAL (R69, R90, R91). -/
def Sys2Proof.Expect.modexpRows : Prop :=
  ∀ w : Word, w &&& 0x000000FF#32 = 0x20#32 → decode w =
    if w &&& 0xFFF888FF#32 = 0x00000020#32 then some (.modexp (fieldRd w) (fieldRs1 w) (fieldRs2 w))
    else if w &&& 0xFFF888FF#32 = 0x00100020#32 then some (.modexpChk (fieldRd w) (fieldRs1 w) (fieldRs2 w))
    else none

/-- R90: MODEXP writes the exact power `(a ^ e) mod N` for every exponent, `0^0 = 1` included; NOMOD without a modulus, RANGE when
`a >= N`. -/
def Obligations.ModexpResult : Prop :=
  modexpRows ∧
  ∀ (rd rs1 rs2 : Reg) (s : State),
    (s.mv = false → exec (.modexp rd rs1 rs2) s = .next (failed s 2#4)) ∧
    (s.mv = true → s.n ≤ s.readReg rs1 → exec (.modexp rd rs1 rs2) s = .next (failed s 4#4)) ∧
    (s.mv = true → s.readReg rs1 < s.n →
      exec (.modexp rd rs1 rs2) s = .next (wrote s rd (s.readReg rs1 ^ s.readReg rs2 % s.n)))

/-- R91: MODEXP.CHK writes `(a ^ e) mod N` for a base in `[1, N)`; NOMOD without a modulus, PTRANGE when `a = 0` or `a >= N`. -/
def Obligations.ModexpChkResult : Prop :=
  modexpRows ∧
  ∀ (rd rs1 rs2 : Reg) (s : State),
    (s.mv = false → exec (.modexpChk rd rs1 rs2) s = .next (failed s 2#4)) ∧
    (s.mv = true → (s.readReg rs1 = 0 ∨ s.n ≤ s.readReg rs1) → exec (.modexpChk rd rs1 rs2) s = .next (failed s 5#4)) ∧
    (s.mv = true → 1 ≤ s.readReg rs1 → s.readReg rs1 < s.n →
      exec (.modexpChk rd rs1 rs2) s = .next (wrote s rd (s.readReg rs1 ^ s.readReg rs2 % s.n)))

/-- R96: MODMUL writes `(a * b) mod N` of any two operands, also ones not below N; NOMOD without a modulus. -/
def Obligations.ModmulResult : Prop :=
  opRow 0x30#32 0xFFF888FF#32 0x00000030#32 (fun w => .modmul (fieldRd w) (fieldRs1 w) (fieldRs2 w)) ∧
  ∀ (rd rs1 rs2 : Reg) (s : State),
    (s.mv = false → exec (.modmul rd rs1 rs2) s = .next (failed s 2#4)) ∧
    (s.mv = true → exec (.modmul rd rs1 rs2) s = .next (wrote s rd (s.readReg rs1 * s.readReg rs2 % s.n)))

/-- R97: MODRED writes `(h * 2^OPW + l) mod N`, `h` from RS1 and `l` from RS2; NOMOD without a modulus. -/
def Obligations.ModredResult : Prop :=
  opRow 0x31#32 0xFFF888FF#32 0x00000031#32 (fun w => .modred (fieldRd w) (fieldRs1 w) (fieldRs2 w)) ∧
  ∀ (rd rs1 rs2 : Reg) (s : State),
    (s.mv = false → exec (.modred rd rs1 rs2) s = .next (failed s 2#4)) ∧
    (s.mv = true →
      exec (.modred rd rs1 rs2) s = .next (wrote s rd ((s.readReg rs1 * 2 ^ s.plat.opw + s.readReg rs2) % s.n)))

/-- R100 and R12: GCD writes the greatest common divisor: it divides both operands, every common divisor divides it, and
`gcd(0, 0) = 0`. It needs no modulus and raises no error. -/
def Obligations.GcdResult : Prop :=
  opRow 0x40#32 0xFFF888FF#32 0x00000040#32 (fun w => .gcd (fieldRd w) (fieldRs1 w) (fieldRs2 w)) ∧
  ∀ (rd rs1 rs2 : Reg) (s : State), ∃ g, g ∣ s.readReg rs1 ∧ g ∣ s.readReg rs2 ∧
    (∀ d, d ∣ s.readReg rs1 → d ∣ s.readReg rs2 → d ∣ g) ∧
    (s.readReg rs1 = 0 → s.readReg rs2 = 0 → g = 0) ∧
    exec (.gcd rd rs1 rs2) s = .next (wrote s rd g)

/-- R101: MODINV writes the `x` with `1 <= x < m` and `(a * x) mod m = 1`; RANGE when `m < 2`, NOINV when `gcd(a, m) != 1`. It needs
no modulus. -/
def Obligations.ModinvResult : Prop :=
  opRow 0x41#32 0xFFF888FF#32 0x00000041#32 (fun w => .modinv (fieldRd w) (fieldRs1 w) (fieldRs2 w)) ∧
  ∀ (rd rs1 rs2 : Reg) (s : State),
    (s.readReg rs2 < 2 → exec (.modinv rd rs1 rs2) s = .next (failed s 4#4)) ∧
    (2 ≤ s.readReg rs2 → Nat.gcd (s.readReg rs1) (s.readReg rs2) ≠ 1 →
      exec (.modinv rd rs1 rs2) s = .next (failed s 6#4)) ∧
    (2 ≤ s.readReg rs2 → Nat.gcd (s.readReg rs1) (s.readReg rs2) = 1 →
      ∃ x, 1 ≤ x ∧ x < s.readReg rs2 ∧ s.readReg rs1 * x % s.readReg rs2 = 1 ∧
        exec (.modinv rd rs1 rs2) s = .next (wrote s rd x))

/-! ## Laws of the units -/

/-- R88: the laws of the Montgomery multiplier, for operands below a loaded modulus, as command sequences. -/
def Obligations.MontgomeryLaws : Prop :=
  ∀ (s : State) (ra rb r1 r2 r3 r4 : Reg), s.mv = true → goodModulus s.n → s.readReg ra < s.n → s.readReg rb < s.n →
    (∃ t, runAll [.tomont r1 ra, .frommont r2 r1] s = some t ∧ t.err = 0#4 ∧ t.readReg r2 = s.readReg ra) ∧
    (∃ t, runAll [.frommont r1 ra, .tomont r2 r1] s = some t ∧ t.err = 0#4 ∧ t.readReg r2 = s.readReg ra) ∧
    (r1 ≠ rb → r1 ≠ r2 →
      (∃ t, runAll [.tomont r1 ra, .tomont r2 rb, .montmul r3 r1 r2] s = some t ∧ t.err = 0#4 ∧
        t.readReg r3 = s.readReg ra * s.readReg rb % s.n * 2 ^ s.plat.opw % s.n) ∧
      (∃ t u, runAll [.tomont r1 ra, .tomont r2 rb, .montmul r3 r1 r2, .frommont r4 r3] s = some t ∧ t.err = 0#4 ∧
        runAll [.modmul r4 ra rb] s = some u ∧ t.readReg r4 = s.readReg ra * s.readReg rb % s.n ∧
        t.readReg r4 = u.readReg r4)) ∧
    exec (.montmul r1 ra rb) s = exec (.montmul r1 rb ra) s

/-- R98: MODMUL is MODRED of the two halves of the exact product; it is the Montgomery route's result for operands below N; MODRED
with `h = 0` and `l < N` returns `l`. -/
def Obligations.BarrettLaws : Prop :=
  ∀ (s : State), s.mv = true →
    (∀ rd ra rb rh rl : Reg, s.readReg rh = s.readReg ra * s.readReg rb / 2 ^ s.plat.opw →
      s.readReg rl = s.readReg ra * s.readReg rb % 2 ^ s.plat.opw →
      exec (.modmul rd ra rb) s = exec (.modred rd rh rl) s) ∧
    (∀ rd ra rb r1 r2 r3 : Reg, goodModulus s.n → s.readReg ra < s.n → s.readReg rb < s.n → r1 ≠ rb → r1 ≠ r2 →
      ∃ t u, runAll [.modmul rd ra rb] s = some t ∧
        runAll [.tomont r1 ra, .tomont r2 rb, .montmul r3 r1 r2, .frommont rd r3] s = some u ∧
        t.err = 0#4 ∧ u.err = 0#4 ∧ t.readReg rd = u.readReg rd) ∧
    (∀ rd rh rl : Reg, s.readReg rh = 0 → s.readReg rl < s.n →
      exec (.modred rd rh rl) s = .next (wrote s rd (s.readReg rl)))

/-- R102: with a modulus of at least 2, MODINV completes without error exactly when GCD of the same operands returns 1, and then
its result lies in `[1, m)`. -/
def Obligations.InverseExistsWhenCoprime : Prop :=
  ∀ (s : State) (rd rg ra rm : Reg), 2 ≤ s.readReg rm →
    ∃ t u, exec (.modinv rd ra rm) s = .next t ∧ exec (.gcd rg ra rm) s = .next u ∧
      (t.err = 0#4 ↔ u.readReg rg = 1) ∧ (t.err = 0#4 → 1 ≤ t.readReg rd ∧ t.readReg rd < s.readReg rm)

/-- R93: the RSA round trip. With `N = p*q` for distinct primes, `phi = (p-1)*(q-1)`, `gcd(e, phi) = 1` and `d` what MODINV of
`(e, phi)` computes, MODEXP of MODEXP.CHK's result by `d` gives the plaintext back, for every `m` in `[1, N)`. -/
def Obligations.RsaRoundTrip : Prop :=
  ∀ (s : State) (p q : Nat) (rm re rphi rd rc rx : Reg),
    p.Prime → q.Prime → p ≠ q → s.mv = true → s.n = p * q → s.readReg rphi = (p - 1) * (q - 1) →
    Nat.gcd (s.readReg re) (s.readReg rphi) = 1 → 1 ≤ s.readReg rm → s.readReg rm < s.n →
    rd ≠ rm → rd ≠ re → rc ≠ rd →
    ∃ t, runAll [.modinv rd re rphi, .modexpChk rc rm re, .modexp rx rc rd] s = some t ∧
      t.err = 0#4 ∧ t.readReg rx = s.readReg rm

/-! ## The informative datapaths -/

/-- R89: the word-serial Montgomery datapath leaves `t < 2N` before its one correction and computes the Montgomery product. -/
def Obligations.MontgomeryDatapathRefines : Prop :=
  ∀ nw n a b : Nat, goodModulus n → n < 2 ^ (32 * nw) → a < n → b < n →
    montWordLoop nw n a b < 2 * n ∧ montDatapath nw n a b < n ∧
      montDatapath nw n a b * 2 ^ (32 * nw) % n = a * b % n ∧ montDatapath nw n a b = montProduct (32 * nw) n a b

/-- R95: left-to-right binary exponentiation on the Montgomery multiplier computes the exact power. -/
def Obligations.ModexpDatapathRefines : Prop :=
  ∀ opw n a e : Nat, goodModulus n → a < n → e < 2 ^ opw → modexpDatapath opw n a e = a ^ e % n

/-- R99: Barrett's quotient is the true one or one less, and one correction gives the remainder. -/
def Obligations.BarrettDatapathRefines : Prop :=
  ∀ opw n x : Nat, goodModulus n → x < 2 ^ (2 * opw) →
    (barrettQuotient opw n x = x / n ∨ barrettQuotient opw n x + 1 = x / n) ∧ barrettDatapath opw n x = x % n

/-- R103: the binary algorithm computes the gcd, and the extended Euclidean algorithm the inverse or NOINV. -/
def Obligations.GcdDatapathsRefine : Prop :=
  (∀ a b : Nat, binaryGcd a b = Nat.gcd a b) ∧
  ∀ a m : Nat, 2 ≤ m →
    (Nat.gcd a m = 1 → ∃ x, extInv a m = some x ∧ 1 ≤ x ∧ x < m ∧ a * x % m = 1) ∧
    (Nat.gcd a m ≠ 1 → extInv a m = none)

/-! ## The register window -/

/-- R25, R26, R31: in every state `ID` reads "RSA1", `CFG` reads NW and 8 registers, `CMDCNT` reads the counter, and writes of the
three are ignored. -/
def Obligations.ReadOnlyRegisters : Prop :=
  ∀ (s : State) (d : Word), s.plat.legal = true →
    step (facing (hostR s.plat 0x000) s) = .next { s with resp := .data 0x52534131#32 } ∧
    step (facing (hostR s.plat 0x004) s) = .next { s with resp := .data (BitVec.ofNat 32 (s.plat.opw / 32 + 8 * 2 ^ 16)) } ∧
    step (facing (hostR s.plat 0x014) s) = .next { s with resp := .data s.cmdcnt } ∧
    step (facing (hostW s.plat 0x000 d) s) = .next { s with resp := .ack } ∧
    step (facing (hostW s.plat 0x004 d) s) = .next { s with resp := .ack } ∧
    step (facing (hostW s.plat 0x014 d) s) = .next { s with resp := .ack }

/-- R27: a read of `CTRL` returns IE alone; a write with bit 1 clear sets IE to bit 0, busy or not. R126 and R127: a write with bit 1
set, whatever bit 0 is and busy or not, clears the control state and abandons the command in flight; V0 to V7 keep their
values; what `N` becomes is unspecified: some OPW-bit value (the model's free value, notes/assumptions/7.md). It is the
block's only cancellation: every other access leaves the command in flight. The answer `ack` of a write is the model's
choice (notes/assumptions/23.md). -/
def Obligations.ControlRegisterAndSoftReset : Prop :=
  ∀ (s : State) (d : Word), s.plat.legal = true →
    step (facing (hostR s.plat 0x008) s) = .next { s with resp := .data (if s.ie then 1#32 else 0#32) } ∧
    (d.getLsbD 1 = false → step (facing (hostW s.plat 0x008 d) s) = .next { s with ie := d.getLsbD 0, resp := .ack }) ∧
    (d.getLsbD 1 = true → ∃ m k, m < 2 ^ s.plat.opw ∧
      step (facing (hostW s.plat 0x008 d) s) = .next { softResetTo s m k with resp := .ack }) ∧
    (∀ (op : HostOp) (t : State), s.busy = true →
      (∀ v : Word, v.getLsbD 1 = true → op ≠ .write (s.plat.base + 0x008) .word v) →
      step (facing (.host op) s) = .next t → t.busy = true ∧ t.cmd = s.cmd)

/-- R28: a read of `STATUS` shows BUSY, DONE, MV, OVR and ERR in their bits and 0 above, without a side effect; a write clears DONE by
bit 1 and OVR by bit 3, and does nothing else, busy or not. -/
def Obligations.StatusRegister : Prop :=
  ∀ (s : State) (d : Word), s.plat.legal = true →
    (∃ x : Word, step (facing (hostR s.plat 0x00C) s) = .next { s with resp := .data x } ∧
      x.getLsbD 0 = s.busy ∧ x.getLsbD 1 = s.done ∧ x.getLsbD 2 = s.mv ∧ x.getLsbD 3 = s.ovr ∧
      x.extractLsb' 4 4 = s.err ∧ x.extractLsb' 8 24 = 0#24) ∧
    step (facing (hostW s.plat 0x00C d) s) =
      .next { s with
        done := if d.getLsbD 1 then false else s.done
        ovr := if d.getLsbD 3 then false else s.ovr
        resp := .ack }

/-- R41: the offsets 0x0018 to 0x0FFC and the words `w >= NW` of the operand window read 0, busy or not; a write to them is ignored,
but for OVR when it is in the operand window and a command is in flight. -/
def Obligations.ReservedOffsets : Prop :=
  ∀ (s : State) (d : Word), s.plat.legal = true →
    (∀ off : Nat, 0x018 ≤ off → off ≤ 0xFFC → off % 4 = 0 →
      step (facing (hostR s.plat off) s) = .next { s with resp := .data 0#32 } ∧
      step (facing (hostW s.plat off d) s) = .next { s with resp := .ack }) ∧
    (∀ (r : Reg) (w : Nat), s.plat.nw ≤ w → w ≤ 127 →
      step (facing (hostR s.plat (operandOffset r w)) s) = .next { s with resp := .data 0#32 } ∧
      (s.busy = false → step (facing (hostW s.plat (operandOffset r w) d) s) = .next { s with resp := .ack }) ∧
      (s.busy = true →
        step (facing (hostW s.plat (operandOffset r w) d) s) = .next { s with ovr := true, resp := .ack }))

/-- R40 while idle: the offset `0x1000 + 0x200*r + 4*w` with `w < NW` addresses bits `32*w+31 : 32*w` of `Vr`. A read returns that
slice; a write replaces exactly that slice and no other bit of any register. -/
def Obligations.OperandWindow : Prop :=
  ∀ (s : State) (r : Reg) (w : Nat) (d : Word), s.plat.legal = true → s.busy = false → w < s.plat.nw →
    step (facing (hostR s.plat (0x1000 + 0x200 * r.val + 4 * w)) s) =
      .next { s with resp := .data (BitVec.ofNat 32 (s.readReg r / 2 ^ (32 * w))) } ∧
    ∃ t, step (facing (hostW s.plat (0x1000 + 0x200 * r.val + 4 * w) d) s) = .next t ∧
      (∀ j : Nat, (t.readReg r).testBit j =
        if 32 * w ≤ j ∧ j ≤ 32 * w + 31 then d.getLsbD (j - 32 * w) else (s.readReg r).testBit j) ∧
      (∀ r', r' ≠ r → t.readReg r' = s.readReg r') ∧
      { t with v := s.v, unwritten := s.unwritten, resp := s.resp } = s

/-- R47: with OPW = 64, writing 0x00000CA1 to offset 0x1000 and 0 to 0x1004 makes `x[0] = 3233`; a read of 0x1000 returns
0x00000CA1, and the bytes of the window in address order are A1 0C 00 00 00 00 00 00 (R46's lanes). -/
def Obligations.LittleEndianExample : Prop :=
  ∀ (s : State), s.plat.legal = true → s.plat.opw = 64 → s.busy = false → s.readReg 0 < 2 ^ 64 →
    ∃ t u x y, Host.Core.run core 2
        (facing (hostW s.plat 0x1000 0x00000CA1#32) (facing (hostW s.plat 0x1004 0x00000000#32) s)) = .next t ∧
      t.readReg 0 = 3233 ∧
      step (facing (hostR s.plat 0x1000) t) = .next { t with resp := .data x } ∧ x = 0x00000CA1#32 ∧
      step (facing (hostR s.plat 0x1004) t) = .next u ∧ u.resp = .data y ∧
      (List.range 4).map (laneByte x) ++ (List.range 4).map (laneByte y) =
        [0xA1#8, 0x0C#8, 0x00#8, 0x00#8, 0x00#8, 0x00#8, 0x00#8, 0x00#8]

/-- R45 and R17: `WV i, value`, the NW word writes of a value while idle, makes `x[i]` that value, and the register counts as written
(R21); no other register changes. -/
def Obligations.WriteOperandSequence : Prop :=
  ∀ (s : State) (r : Reg) (value : Nat), s.Inv → s.busy = false → value < 2 ^ s.plat.opw →
    ∃ t, Host.Core.run core s.plat.nw { s with agenda := hostWV s.plat r value ++ s.agenda } = .next t ∧
      t.readReg r = value ∧ t.regWritten r = true ∧
      (∀ r', r' ≠ r → t.readReg r' = s.readReg r' ∧ t.regWritten r' = s.regWritten r') ∧ t.agenda = s.agenda

/-- Reads are free of side effects, at every address and width, and while idle a second read returns what the first did (R48, R53). -/
def Obligations.ReadsHaveNoSideEffects : Prop :=
  ∀ (s t : State) (addr : Nat) (width : Width), step (facing (.host (.read addr width)) s) = .next t →
    { t with resp := s.resp, draws := s.draws } = s ∧
    (s.busy = false → step (facing (.host (.read addr width)) t) = .next t)

/-- R51: a read of word `w < NW` of the operand window while a command is in flight returns a value nothing constrains, another on
each read, and changes no state of the block and not OVR. -/
def Obligations.BusyOperandReadIsFree : Prop :=
  ∀ (s : State) (r : Reg) (w : Nat), s.plat.legal = true → s.busy = true → w < s.plat.nw →
    step (facing (hostR s.plat (operandOffset r w)) s) =
      .next { s with resp := .data (Config.busyRead s.draws), draws := s.draws + 1 }

/-- R130 and R50: while a command is in flight a write of `CMD` or of the operand window sets OVR and changes nothing else; OVR stays 1
until a write of 1 to STATUS bit 3 or a reset. -/
def Obligations.RefusedAccesses : Prop :=
  (∀ (s : State) (d : Word) (off : Nat), s.plat.legal = true → s.busy = true →
    (off = 0x010 ∨ (0x1000 ≤ off ∧ off ≤ 0x1FFC ∧ off % 4 = 0)) →
      step (facing (hostW s.plat off d) s) = .next { s with ovr := true, resp := .ack }) ∧
  (∀ (s : State) (d : Word), s.plat.legal = true → s.busy = true →
    (∃ t, step (facing (hostW s.plat 0x008 d) s) = .next t ∧ (d.getLsbD 1 = false → t.ovr = s.ovr)) ∧
    (∃ t, step (facing (hostW s.plat 0x00C d) s) = .next t ∧ (d.getLsbD 3 = false → t.ovr = s.ovr))) ∧
  (∀ (s t : State), step s = .next t → s.ovr = true → resetsNext s = false → ¬ clearsOverrunNext s → t.ovr = true)

/-- R43: an access to the window that is not a 32-bit access at a multiple-of-4 offset is a fault that carries the offset. -/
def Obligations.BusErrors : Prop :=
  ∀ (s : State) (off : Nat) (width : Width) (d : Word), s.plat.legal = true → off < 0x2000 → (width ≠ .word ∨ off % 4 ≠ 0) →
    step (facing (.host (.read (s.plat.base + off) width)) s) = .fault (.busError (BitVec.ofNat 13 off)) ∧
    step (facing (.host (.write (s.plat.base + off) width d)) s) = .fault (.busError (BitVec.ofNat 13 off))

/-- 93 F4: an instruction fetch from the window is a bus error. R38: an access outside the window does not reach the block; that it
is answered `notSelected` is the model's choice (notes/assumptions/10.md). -/
def Obligations.FetchesAndOutsideAccesses : Prop :=
  ∀ (s : State) (addr : Nat) (width : Width) (d : Word), s.plat.legal = true →
    (s.plat.base ≤ addr → addr < s.plat.base + 0x2000 →
      step (facing (.host (.fetch addr)) s) = .fault (.busError (BitVec.ofNat 13 (addr - s.plat.base)))) ∧
    ((addr < s.plat.base ∨ s.plat.base + 0x2000 ≤ addr) →
      step (facing (.host (.read addr width)) s) = .next { s with resp := .notSelected } ∧
      step (facing (.host (.write addr width d)) s) = .next { s with resp := .notSelected } ∧
      step (facing (.host (.fetch addr)) s) = .next { s with resp := .notSelected })

/-- R61: a platform that maps the window as cacheable or write-combining memory is refused. -/
def Obligations.CacheablePlatformIsRefused : Prop :=
  ∀ s : State, s.plat.mapping ≠ .device → step s = .refused .excludedPlatform

/-! ## Reset and interrupt -/

/-- R125: the hardware reset event gives every piece of state its value of R37, abandons the command in flight, and leaves V0 to V7
and `N` unspecified: some values below `2^OPW`, no register counting as written. -/
def Obligations.HardwareReset : Prop :=
  ∀ (s : State), s.plat.legal = true →
    ∃ t, step (facing .rst s) = .next t ∧
      t.ie = false ∧ t.busy = false ∧ t.done = false ∧ t.ovr = false ∧ t.err = 0#4 ∧ t.mv = false ∧ t.cmd = 0#32 ∧
      t.cmdcnt = 0#32 ∧ t.irq = false ∧ t.plat = s.plat ∧ t.agenda = s.agenda ∧ t.n < 2 ^ s.plat.opw ∧
      ∀ r : Reg, t.readReg r < 2 ^ s.plat.opw ∧ t.regWritten r = false

/-- R37, the hardware reset column, at `State.reset` (the values the spec gives; V0 to V7 and `N` are unspecified there). -/
def Obligations.ResetValues : Prop :=
  State.reset.ie = false ∧ State.reset.busy = false ∧ State.reset.done = false ∧ State.reset.ovr = false ∧
  State.reset.err = 0#4 ∧ State.reset.mv = false ∧ State.reset.cmd = 0#32 ∧ State.reset.cmdcnt = 0#32 ∧
  State.reset.irq = false ∧ State.reset.plat.opw = 64

/-- R117 and R33: `irq` is IE AND DONE. Every completion raises it when IE is set; clearing DONE, an acceptance and both resets lower
it; setting IE while DONE is 1 raises it; a refused write does not touch it. -/
def Obligations.InterruptOutput : Prop :=
  ∀ (s : State), s.plat.legal = true →
    s.irq = (s.ie && s.done) ∧
    (s.busy = true → ∃ t, step (facing .engine s) = .next t ∧ t.done = true ∧ t.irq = s.ie) ∧
    (∀ d, d.getLsbD 1 = true → ∃ t, step (facing (hostW s.plat 0x00C d) s) = .next t ∧ t.irq = false) ∧
    (∀ w, s.busy = false → ∃ t, step (facing (hostCmd s.plat w) s) = .next t ∧ t.irq = false) ∧
    (∀ w, s.busy = true → ∃ t, step (facing (hostCmd s.plat w) s) = .next t ∧ t.irq = s.irq) ∧
    (∀ d, d.getLsbD 1 = true → ∃ t, step (facing (hostW s.plat 0x008 d) s) = .next t ∧ t.irq = false) ∧
    (∃ t, step (facing .rst s) = .next t ∧ t.irq = false) ∧
    (∀ d, d.getLsbD 1 = false → d.getLsbD 0 = true →
      ∃ t, step (facing (hostW s.plat 0x008 d) s) = .next t ∧ t.done = s.done ∧ t.irq = s.done) ∧
    (∀ d, d.getLsbD 1 = false → d.getLsbD 0 = false →
      ∃ t, step (facing (hostW s.plat 0x008 d) s) = .next t ∧ t.done = s.done ∧ t.irq = false)

/-! ## Rules over every step -/

/-- R31: `CMDCNT` is incremented at every completion, with or without an error, is 0 after a reset, and changes at no other step. -/
def Obligations.CounterCountsCompletions : Prop :=
  ∀ s t : State, step s = .next t →
    t.cmdcnt = if completesNext s then s.cmdcnt + 1#32 else if resetsNext s then 0#32 else s.cmdcnt

/-- R22 and R23: only a SETMOD that completes without error loads `N` and sets MV, only a reset clears MV, and at every other step both
keep their values. -/
def Obligations.ModulusChangesOnlyBySetmod : Prop :=
  ∀ s t : State, step s = .next t →
    (∃ a, completesNext s = true ∧ decode s.cmd = some (.setmod a) ∧ goodModulus (s.readReg a) ∧
      t.n = s.readReg a ∧ t.mv = true) ∨
    (resetsNext s = true ∧ t.mv = false) ∨
    (resetsNext s = false ∧ t.n = s.n ∧ t.mv = s.mv)

/-- R20: an operand register changes only by a host write of one of its words while idle, by a completion without error whose RD names
it, or by the hardware reset. -/
def Obligations.RegistersChangeOnlyAsStated : Prop :=
  ∀ (s t : State) (r : Reg), step s = .next t → t.readReg r ≠ s.readReg r →
    (s.busy = false ∧ writesOperandNext s r) ∨
    (completesNext s = true ∧ t.err = 0#4 ∧ ∃ i, decode s.cmd = some i ∧ destOf i = some r) ∨
    (∃ rest, s.agenda = .rst :: rest)

/-- R50, R60, R78: while a command is in flight no step of the host changes an operand register, and none that is no soft reset changes
`N`, MV, the command word or BUSY; so the completion reads the operands as they were at acceptance. -/
def Obligations.HostLeavesTheCommandAlone : Prop :=
  ∀ (s t : State) (op : HostOp), s.busy = true → step (facing (.host op) s) = .next t →
    (∀ r, t.readReg r = s.readReg r) ∧
    (softResets s.plat op = false → t.n = s.n ∧ t.mv = s.mv ∧ t.cmd = s.cmd ∧ t.busy = true ∧ t.cmdcnt = s.cmdcnt)

/-- Every step keeps the invariant: parameters legal, registers and `N` below `2^OPW` (R4, R19), a loaded modulus odd and at least 3
(R83), BUSY with DONE = 0 and ERR = 0 (R29), ERR a code of R108. -/
def Obligations.StepKeepsInvariant : Prop := ∀ s t : State, s.Inv → step s = .next t → t.Inv

/-- The invariant holds in the reset state. -/
def Obligations.ResetInvariant : Prop := State.reset.Inv

/-! ## Interleaving, delay and completion -/

/-- R135: every accepted command completes after finitely many steps unless a reset abandons it first: within one step more than the
agenda has turns, if no turn of the host is a reset or stops on a bus error. Two choices of the model stand behind it: when
the agenda is empty the engine has the step (notes/assumptions/2.md), which is how R135's fairness is said here; and a bus
error ends the run (notes/assumptions/9.md), so an agenda with one is left out although R43 lets the command go on. -/
def Obligations.AcceptedCommandCompletes : Prop :=
  ∀ s : State, s.plat.legal = true → s.busy = true → (∀ t ∈ s.agenda, quietTurn s.plat t = true) →
    ∃ k u, k ≤ s.agenda.length + 1 ∧ Host.Core.run core k s = .next u ∧
      u.busy = false ∧ u.done = true ∧ u.cmd = s.cmd ∧ u.cmdcnt = s.cmdcnt + 1#32

/-- R134: every finite number of host steps between acceptance and completion is a run: after `k` reads of STATUS, each showing BUSY,
the command completes as it would have at once. -/
def Obligations.AnyDelayIsARun : Prop :=
  ∀ (s : State) (k : Nat), s.plat.legal = true → s.busy = true →
    ∃ t u, Host.Core.run core k { s with agenda := List.replicate k (hostPoll s.plat) ++ .engine :: s.agenda } = .next t ∧
      t.busy = true ∧ (0 < k → ∃ x : Word, t.resp = .data x ∧ x.getLsbD 0 = true) ∧
      step t = .next u ∧ step (facing .engine s) = .next { u with resp := s.resp }

/-- R118: a read of STATUS racing with a completion returns the before value or the after value, and the block ends in the same state;
a `CMD` write racing with a completion is refused, or accepted after it. -/
def Obligations.RacesAreOrdered : Prop :=
  ∀ (s : State) (w : Word), s.Inv → s.busy = true →
    (∃ t u x y, Host.Core.run core 2 (facing (hostPoll s.plat) (facing .engine s)) = .next t ∧
      Host.Core.run core 2 (facing .engine (facing (hostPoll s.plat) s)) = .next u ∧
      { t with resp := u.resp } = u ∧ t.resp = .data x ∧ u.resp = .data y ∧
      x.getLsbD 0 = true ∧ x.getLsbD 1 = false ∧ y.getLsbD 0 = false ∧ y.getLsbD 1 = true) ∧
    (∃ t, Host.Core.run core 2 (facing (hostCmd s.plat w) (facing .engine s)) = .next t ∧
      t.ovr = true ∧ t.busy = false ∧ t.cmd = s.cmd ∧ t.cmdcnt = s.cmdcnt + 1#32) ∧
    (∃ t, Host.Core.run core 2 (facing .engine (facing (hostCmd s.plat w) s)) = .next t ∧
      t.ovr = s.ovr ∧ t.busy = true ∧ t.cmd = w ∧ t.cmdcnt = s.cmdcnt + 1#32)

/-! ## Never-written registers -/

/-- R21 and 93 U1, turn by turn: the strict machine faults, naming such a register, when an idle host reads a word of an operand
register some word of which nobody has written since hardware reset, and when the engine completes a command whose RS1 or
RS2 field names one; on every other turn it is `step`. That a read while busy, an ILLEGAL command and a NOMOD command read
no operand is DEDUCED, and which of two such registers the fault names is a DESIGN CHOICE (notes/assumptions/8.md), so the
statement says only that it names one. A host write of a word makes that word, and no other, written. -/
def Obligations.StrictMachineFaults : Prop :=
  ∀ s : State,
    (s.plat.legal = false → strictStep s = .refused .excludedPlatform) ∧
    (s.plat.legal = true →
      -- a host read of a word of an operand register, while idle
      (∀ (r : Reg) (w : Nat), s.busy = false → w < s.plat.nw →
        (s.unwritten[r.val] ≠ [] →
          strictStep (facing (hostR s.plat (0x1000 + 0x200 * r.val + 4 * w)) s) = .fault (.unwrittenRead r)) ∧
        (s.unwritten[r.val] = [] →
          strictStep (facing (hostR s.plat (0x1000 + 0x200 * r.val + 4 * w)) s) =
            step (facing (hostR s.plat (0x1000 + 0x200 * r.val + 4 * w)) s))) ∧
      -- every other access of the host, and the reset input
      (∀ (addr : Nat) (width : Width),
        (s.busy = true ∨ ∀ (r : Reg) (w : Nat), w < s.plat.nw →
          ¬ (width = .word ∧ addr = s.plat.base + (0x1000 + 0x200 * r.val + 4 * w))) →
        strictStep (facing (.host (.read addr width)) s) = step (facing (.host (.read addr width)) s)) ∧
      (∀ (addr : Nat) (width : Width) (d : Word),
        strictStep (facing (.host (.write addr width d)) s) = step (facing (.host (.write addr width d)) s)) ∧
      (∀ addr : Nat, strictStep (facing (.host (.fetch addr)) s) = step (facing (.host (.fetch addr)) s)) ∧
      strictStep (facing .rst s) = step (facing .rst s) ∧
      -- the engine's turn, by the agenda or because nobody else has one left
      (∀ u : State, (u = facing .engine s ∨ (s.agenda = [] ∧ u = s)) →
        (s.busy = true → decode s.cmd ≠ none → (usesModulus s.cmd = true → s.mv = true) →
          (∃ r ∈ operandFields s.cmd, s.unwritten[r.val] ≠ []) →
          ∃ r ∈ operandFields s.cmd, s.unwritten[r.val] ≠ [] ∧ strictStep u = .fault (.unwrittenRead r)) ∧
        ((s.busy = false ∨ decode s.cmd = none ∨ (usesModulus s.cmd = true ∧ s.mv = false) ∨
            ∀ r ∈ operandFields s.cmd, s.unwritten[r.val] = []) →
          strictStep u = step u)) ∧
      -- what a host write leaves unwritten
      (∀ (r : Reg) (w : Nat) (d : Word), s.busy = false → w < s.plat.nw →
        ∃ t, step (facing (hostW s.plat (0x1000 + 0x200 * r.val + 4 * w) d) s) = .next t ∧
          (∀ k, k ∈ t.unwritten[r.val] ↔ k ∈ s.unwritten[r.val] ∧ k ≠ w) ∧
          ∀ r' : Reg, r' ≠ r → t.unwritten[r'.val] = s.unwritten[r'.val]))

/-- No outcome of the strict machine depends on what never-written registers hold, nor on `N` while no modulus is loaded: the values
`State.reset` chooses for them (notes/assumptions/3.md and 4.md, the model's choice) cannot be observed in a run that R21
allows (93 U1, U3). -/
def Obligations.UnwrittenValuesAreUnobservable : Prop :=
  ∀ s t : State, s.Inv → t.Inv → s.AgreeOnWritten t → OutcomesAgree (strictStep s) (strictStep t)
end

