-- ==== Sys2Proof/Laws/Arith.lean ====
section
/-! SUPPORT. The algorithms of Machine/Arith.lean compute the numbers of R12, and the laws of an operand's 32-bit words (R40). -/

namespace Sys2Proof.Machine

theorem mod_two_pow_succ_testBit (e k : Nat) : e % 2 ^ (k + 1) = e % 2 ^ k + 2 ^ k * (e.testBit k).toNat := by
  rw [Nat.mod_pow_succ, Nat.testBit_eq_decide_div_mod_eq]
  rcases Nat.mod_two_eq_zero_or_one (e / 2 ^ k) with h | h <;> simp [h]

/-- What the scan leaves in the accumulator. -/
theorem powModFuel_eq (n a e : Nat) :
    ∀ fuel acc, acc % n = acc → powModFuel n a fuel e acc = acc ^ 2 ^ fuel * a ^ (e % 2 ^ fuel) % n := by
  intro fuel
  induction fuel with
  | zero => intro acc h; simp [powModFuel, h, Nat.mod_one]
  | succ k ih =>
    intro acc _
    have hsq : (acc * acc % n) ^ 2 ^ k ≡ acc ^ 2 ^ (k + 1) [MOD n] := by
      have := (Nat.mod_modEq (acc * acc) n).pow (2 ^ k)
      rwa [← pow_two (acc), ← pow_mul, ← pow_succ', pow_two] at this
    rw [powModFuel, mod_two_pow_succ_testBit]
    cases e.testBit k with
    | false =>
      simp only [Bool.false_eq_true, if_false, Bool.toNat_false, mul_zero, add_zero]
      rw [ih _ (Nat.mod_mod _ _)]
      exact hsq.mul_right _
    | true =>
      simp only [if_true, Bool.toNat_true, mul_one]
      rw [ih _ (Nat.mod_mod _ _)]
      have h1 : (acc * acc % n * a % n) ^ 2 ^ k ≡ acc ^ 2 ^ (k + 1) * a ^ 2 ^ k [MOD n] := by
        refine ((Nat.mod_modEq _ n).pow _).trans ?_
        rw [mul_pow]
        exact hsq.mul_right _
      refine (h1.mul_right _).trans ?_
      rw [mul_assoc, ← pow_add, add_comm (2 ^ k)]

/-- `powMod` is the exact power reduced (R12, R90). -/
theorem powMod_eq (a e n : Nat) : powMod a e n = a ^ e % n := by
  rw [powMod, powModFuel_eq n a e _ _ (Nat.mod_mod _ _), Nat.mod_eq_of_lt Nat.lt_log2_self]
  have h : (1 % n) ^ 2 ^ (e.log2 + 1) ≡ 1 [MOD n] := by simpa using (Nat.mod_modEq 1 n).pow (2 ^ (e.log2 + 1))
  have h2 : (1 % n) ^ 2 ^ (e.log2 + 1) * a ^ e ≡ 1 * a ^ e [MOD n] := h.mul_right (a ^ e)
  rwa [one_mul] at h2

/-- What the extended Euclidean algorithm returns: the gcd, and a coefficient for it (R103). -/
theorem extEuclid_spec (a m : Int) :
    ∀ fuel (r0 r1 : Nat) (t0 t1 : Int), r1 < fuel → (r0 : Int) ≡ t0 * a [ZMOD m] → (r1 : Int) ≡ t1 * a [ZMOD m] →
      (extEuclid fuel r0 r1 t0 t1).1 = Nat.gcd r0 r1 ∧
      ((extEuclid fuel r0 r1 t0 t1).1 : Int) ≡ (extEuclid fuel r0 r1 t0 t1).2 * a [ZMOD m] := by
  intro fuel
  induction fuel with
  | zero => intro r0 r1 t0 t1 h; omega
  | succ k ih =>
    intro r0 r1 t0 t1 hlt h0 h1
    rw [extEuclid]
    split
    · next hz => subst hz; exact ⟨by simp, h0⟩
    · next hz =>
      have hlt' : r0 % r1 < k := lt_of_lt_of_le (Nat.mod_lt _ (Nat.pos_of_ne_zero hz)) (by omega)
      have hr : ((r0 % r1 : Nat) : Int) ≡ (t0 - (r0 / r1 : Nat) * t1) * a [ZMOD m] := by
        have he : ((r0 % r1 : Nat) : Int) = r0 - (r0 / r1 : Nat) * r1 := by
          have := Nat.div_add_mod r0 r1
          zify at this ⊢
          linarith [mul_comm (r1 : Int) ((r0 : Int) / r1)]
        rw [he, sub_mul, mul_assoc]
        exact h0.sub (h1.mul_left _)
      obtain ⟨hg, hc⟩ := ih r1 (r0 % r1) t1 _ hlt' h1 hr
      refine ⟨?_, hc⟩
      rw [hg, Nat.gcd_comm r0 r1, Nat.gcd_rec r1 r0, Nat.gcd_comm]

/-- The extended Euclidean algorithm as `modInv` starts it. -/
theorem extEuclid_start (a m : Nat) :
    (extEuclid (m + 1) m (a % m) 0 1).1 = Nat.gcd a m ∧
    (Nat.gcd a m : Int) ≡ (extEuclid (m + 1) m (a % m) 0 1).2 * a [ZMOD m] := by
  have hlt : a % m < m + 1 ∨ m = 0 := by
    rcases Nat.eq_zero_or_pos m with h | h
    · exact .inr h
    · exact .inl (Nat.lt_succ_of_lt (Nat.mod_lt _ h))
  rcases hlt with hlt | rfl
  · have := extEuclid_spec a m (m + 1) m (a % m) 0 1 hlt
      (by simp [Int.ModEq]) (by simpa using Int.mod_modEq a m)
    have hg : Nat.gcd m (a % m) = Nat.gcd a m := by rw [Nat.gcd_comm, ← Nat.gcd_rec, Nat.gcd_comm]
    rw [hg] at this
    exact ⟨this.1, this.1 ▸ this.2⟩
  · simp only [Nat.mod_zero, extEuclid, Nat.gcd_zero_right]
    split <;> simp_all [Int.ModEq]

/-- `modInv` is the inverse of R12. -/
theorem modInv_spec {a m : Nat} (hm : 2 ≤ m) (hg : Nat.gcd a m = 1) :
    1 ≤ modInv a m ∧ modInv a m < m ∧ a * modInv a m % m = 1 := by
  have hm0 : (m : Int) ≠ 0 := by omega
  have hx : ((modInv a m : Nat) : Int) = (extEuclid (m + 1) m (a % m) 0 1).2 % (m : Int) :=
    Int.toNat_of_nonneg (Int.emod_nonneg _ hm0)
  have hlt : modInv a m < m := by
    zify
    rw [hx]
    exact Int.emod_lt_of_pos _ (by omega)
  have hone : a * modInv a m % m = 1 := by
    have h := (extEuclid_start a m).2
    rw [hg] at h
    have h2 : ((a * modInv a m : Nat) : Int) ≡ ((1 : Nat) : Int) [ZMOD m] := by
      push_cast
      rw [hx, mul_comm]
      exact ((Int.mod_modEq _ _).mul_right _).trans (by simpa using h.symm)
    have h3 := (Int.natCast_modEq_iff.mp h2 : a * modInv a m ≡ 1 [MOD m])
    rw [h3, Nat.mod_eq_of_lt (by omega)]
  refine ⟨Nat.pos_of_ne_zero fun h0 => ?_, hlt, hone⟩
  rw [h0] at hone
  simp at hone

/-- An inverse modulo `m` is unique in its range (R12). -/
theorem inverse_unique {a m x y : Nat} (hx : x < m) (hy : y < m) (hax : a * x % m = 1) (hay : a * y % m = 1) : x = y := by
  have hm : 1 < m := by
    rcases Nat.lt_or_ge 1 m with h | h
    · exact h
    · interval_cases m <;> simp_all
  have h : x * (a * y) ≡ y * (a * x) [MOD m] := by rw [show x * (a * y) = y * (a * x) by ring]
  have h1 : a * y ≡ 1 [MOD m] := by rw [Nat.ModEq, hay, Nat.mod_eq_of_lt hm]
  have h2 : a * x ≡ 1 [MOD m] := by rw [Nat.ModEq, hax, Nat.mod_eq_of_lt hm]
  have h3 : x ≡ y [MOD m] := by simpa using ((h1.mul_left x).symm.trans h).trans (h2.mul_left y)
  exact h3.eq_of_lt_of_lt hx hy

/-- `Rinv` of an odd modulus (R12, R84). -/
theorem montRadixInv_spec (opw : Nat) {n : Nat} (hodd : n % 2 = 1) (h3 : 3 ≤ n) :
    1 ≤ montRadixInv opw n ∧ montRadixInv opw n < n ∧ 2 ^ opw * montRadixInv opw n % n = 1 := by
  have hc : Nat.gcd (montRadix opw % n) n = 1 := by
    rw [← Nat.gcd_rec, Nat.gcd_comm]
    exact Nat.Coprime.pow_left _ (Nat.coprime_two_left.mpr (Nat.odd_iff.mpr hodd))
  obtain ⟨h1, h2, h4⟩ := modInv_spec (by omega) hc
  refine ⟨h1, h2, ?_⟩
  rw [montRadix, Nat.mod_mul_mod] at h4
  exact h4

/-- The Montgomery product is fully reduced, and times the radix it is the product (R85). -/
theorem montProduct_spec (opw a b : Nat) {n : Nat} (hodd : n % 2 = 1) (h3 : 3 ≤ n) :
    montProduct opw n a b < n ∧ montProduct opw n a b * 2 ^ opw ≡ a * b [MOD n] := by
  obtain ⟨-, -, hinv⟩ := montRadixInv_spec opw hodd h3
  have hone : 2 ^ opw * montRadixInv opw n ≡ 1 [MOD n] := by rw [Nat.ModEq, hinv, Nat.mod_eq_of_lt (by omega)]
  refine ⟨Nat.mod_lt _ (by omega), ((Nat.mod_modEq _ n).mul_right _).trans ?_⟩
  have := hone.mul_left (a * b)
  rw [mul_one] at this
  exact (by rw [mul_assoc, mul_comm (montRadixInv opw n)] : a * b * montRadixInv opw n * 2 ^ opw =
    a * b * (2 ^ opw * montRadixInv opw n)) ▸ this

/-! The 32-bit words of an operand. -/

theorem operandWord_eq (x w : Nat) : operandWord x w = BitVec.ofNat 32 (x / 2 ^ (32 * w)) := by
  have h : 32 * w + 31 - 32 * w + 1 = 32 := by omega
  simp only [operandWord, slice, h]
  apply BitVec.eq_of_toNat_eq
  simp

theorem getLsbD_operandWord (x w i : Nat) : (operandWord x w).getLsbD i = (decide (i < 32) && x.testBit (32 * w + i)) := by
  rw [operandWord_eq, BitVec.getLsbD_ofNat, Nat.testBit_div_two_pow, Nat.add_comm i]

theorem setOperandWord_testBit (x w i : Nat) (d : Word) :
    (setOperandWord x w d).testBit i =
      if i < 32 * w then x.testBit i else if i < 32 * w + 32 then d.getLsbD (i - 32 * w) else x.testBit i := by
  have hform : setOperandWord x w d =
      2 ^ (32 * w) * (2 ^ 32 * (x / 2 ^ (32 * w + 32)) + d.toNat) + x % 2 ^ (32 * w) := by
    rw [setOperandWord, pow_add]
    ring
  rw [hform, Nat.testBit_two_pow_mul_add _ (Nat.mod_lt _ (by positivity)),
    Nat.testBit_two_pow_mul_add _ d.isLt, Nat.testBit_mod_two_pow, Nat.testBit_div_two_pow]
  split
  · next h => simp [h]
  · next h =>
    by_cases h2 : i < 32 * w + 32
    · simp [h2, show i - 32 * w < 32 by omega, BitVec.getLsbD]
    · simp [h2, show ¬ i - 32 * w < 32 by omega, show i - 32 * w - 32 + (32 * w + 32) = i by omega]

/-- A read of the word written gives the word written, and every other word reads as before (R40). -/
theorem operandWord_setOperandWord (x w k : Nat) (d : Word) :
    operandWord (setOperandWord x w d) k = if k = w then d else operandWord x k := by
  apply BitVec.eq_of_getLsbD_eq
  intro i hi
  rw [getLsbD_operandWord, setOperandWord_testBit]
  by_cases h : k = w
  · subst h; simp [hi]
  · rw [if_neg h, getLsbD_operandWord]
    simp only [hi, decide_true, Bool.true_and]
    rcases Nat.lt_or_gt_of_ne h with h | h
    · simp [show 32 * k + i < 32 * w by omega]
    · simp [show ¬ 32 * k + i < 32 * w by omega, show ¬ 32 * k + i < 32 * w + 32 by omega]

/-- A word `w < NW` written into an operand leaves it an operand (R4, R40). -/
theorem setOperandWord_lt {x w opw : Nat} (d : Word) (hx : x < 2 ^ opw) (hw : 32 * w + 32 ≤ opw) :
    setOperandWord x w d < 2 ^ opw := by
  apply Nat.lt_pow_two_of_testBit
  intro i hi
  rw [setOperandWord_testBit]
  simp only [show ¬ i < 32 * w by omega, show ¬ i < 32 * w + 32 by omega, if_false]
  exact Nat.testBit_lt_two_pow (lt_of_lt_of_le hx (Nat.pow_le_pow_right (by omega) hi))

/-- Two operands with the same words are the same operand. -/
theorem eq_of_operandWord_eq {x y nw : Nat} (hx : x < 2 ^ (32 * nw)) (hy : y < 2 ^ (32 * nw))
    (h : ∀ w < nw, operandWord x w = operandWord y w) : x = y := by
  apply Nat.eq_of_testBit_eq
  intro i
  rcases Nat.lt_or_ge i (32 * nw) with hi | hi
  · have hw := congrArg (fun d => BitVec.getLsbD d (i % 32)) (h (i / 32) (by omega))
    simp only [getLsbD_operandWord, show i % 32 < 32 by omega, decide_true, Bool.true_and,
      show 32 * (i / 32) + i % 32 = i by omega] at hw
    exact hw
  · rw [Nat.testBit_lt_two_pow (lt_of_lt_of_le hx (Nat.pow_le_pow_right (by omega) hi)),
      Nat.testBit_lt_two_pow (lt_of_lt_of_le hy (Nat.pow_le_pow_right (by omega) hi))]

/-- LDI's value fits in 20 bits (R68). -/
theorem zextImm_lt (imm : Nat) : zextImm imm < 2 ^ 20 := Nat.mod_lt _ (by decide)

/-- A well-formed immediate is its own value (R68). -/
theorem zextImm_of_fits {imm : Nat} (h : immFits imm = true) : zextImm imm = imm :=
  Nat.mod_eq_of_lt (of_decide_eq_true h)

end Sys2Proof.Machine
end

