-- ==== Sys2Proof/Laws/State.lean ====
section
/-! SUPPORT. One lemma per field per update of the state, true by rfl, so that no later proof unfolds a record update. -/

namespace Sys2Proof.Machine

/-! The fields after `writeReg`. -/

@[simp] theorem State.writeReg_v (s : State) (r : Reg) (x : Nat) : (s.writeReg r x).v = s.v.set r.val x := rfl
@[simp] theorem State.writeReg_n (s : State) (r : Reg) (x : Nat) : (s.writeReg r x).n = s.n := rfl
@[simp] theorem State.writeReg_mv (s : State) (r : Reg) (x : Nat) : (s.writeReg r x).mv = s.mv := rfl
@[simp] theorem State.writeReg_ie (s : State) (r : Reg) (x : Nat) : (s.writeReg r x).ie = s.ie := rfl
@[simp] theorem State.writeReg_busy (s : State) (r : Reg) (x : Nat) : (s.writeReg r x).busy = s.busy := rfl
@[simp] theorem State.writeReg_done (s : State) (r : Reg) (x : Nat) : (s.writeReg r x).done = s.done := rfl
@[simp] theorem State.writeReg_ovr (s : State) (r : Reg) (x : Nat) : (s.writeReg r x).ovr = s.ovr := rfl
@[simp] theorem State.writeReg_err (s : State) (r : Reg) (x : Nat) : (s.writeReg r x).err = s.err := rfl
@[simp] theorem State.writeReg_cmd (s : State) (r : Reg) (x : Nat) : (s.writeReg r x).cmd = s.cmd := rfl
@[simp] theorem State.writeReg_cmdcnt (s : State) (r : Reg) (x : Nat) : (s.writeReg r x).cmdcnt = s.cmdcnt := rfl
@[simp] theorem State.writeReg_plat (s : State) (r : Reg) (x : Nat) : (s.writeReg r x).plat = s.plat := rfl
@[simp] theorem State.writeReg_agenda (s : State) (r : Reg) (x : Nat) : (s.writeReg r x).agenda = s.agenda := rfl
@[simp] theorem State.writeReg_resp (s : State) (r : Reg) (x : Nat) : (s.writeReg r x).resp = s.resp := rfl
@[simp] theorem State.writeReg_draws (s : State) (r : Reg) (x : Nat) : (s.writeReg r x).draws = s.draws := rfl
@[simp] theorem State.writeReg_unwritten (s : State) (r : Reg) (x : Nat) : (s.writeReg r x).unwritten = s.unwritten.set r.val [] := rfl

/-! The fields after `writeRegWord`. -/

@[simp] theorem State.writeRegWord_v (s : State) (r : Reg) (w : Nat) (d : Word) : (s.writeRegWord r w d).v = s.v.set r.val (setOperandWord (s.readReg r) w d) := rfl
@[simp] theorem State.writeRegWord_n (s : State) (r : Reg) (w : Nat) (d : Word) : (s.writeRegWord r w d).n = s.n := rfl
@[simp] theorem State.writeRegWord_mv (s : State) (r : Reg) (w : Nat) (d : Word) : (s.writeRegWord r w d).mv = s.mv := rfl
@[simp] theorem State.writeRegWord_ie (s : State) (r : Reg) (w : Nat) (d : Word) : (s.writeRegWord r w d).ie = s.ie := rfl
@[simp] theorem State.writeRegWord_busy (s : State) (r : Reg) (w : Nat) (d : Word) : (s.writeRegWord r w d).busy = s.busy := rfl
@[simp] theorem State.writeRegWord_done (s : State) (r : Reg) (w : Nat) (d : Word) : (s.writeRegWord r w d).done = s.done := rfl
@[simp] theorem State.writeRegWord_ovr (s : State) (r : Reg) (w : Nat) (d : Word) : (s.writeRegWord r w d).ovr = s.ovr := rfl
@[simp] theorem State.writeRegWord_err (s : State) (r : Reg) (w : Nat) (d : Word) : (s.writeRegWord r w d).err = s.err := rfl
@[simp] theorem State.writeRegWord_cmd (s : State) (r : Reg) (w : Nat) (d : Word) : (s.writeRegWord r w d).cmd = s.cmd := rfl
@[simp] theorem State.writeRegWord_cmdcnt (s : State) (r : Reg) (w : Nat) (d : Word) : (s.writeRegWord r w d).cmdcnt = s.cmdcnt := rfl
@[simp] theorem State.writeRegWord_plat (s : State) (r : Reg) (w : Nat) (d : Word) : (s.writeRegWord r w d).plat = s.plat := rfl
@[simp] theorem State.writeRegWord_agenda (s : State) (r : Reg) (w : Nat) (d : Word) : (s.writeRegWord r w d).agenda = s.agenda := rfl
@[simp] theorem State.writeRegWord_resp (s : State) (r : Reg) (w : Nat) (d : Word) : (s.writeRegWord r w d).resp = s.resp := rfl
@[simp] theorem State.writeRegWord_draws (s : State) (r : Reg) (w : Nat) (d : Word) : (s.writeRegWord r w d).draws = s.draws := rfl
@[simp] theorem State.writeRegWord_unwritten (s : State) (r : Reg) (w : Nat) (d : Word) : (s.writeRegWord r w d).unwritten = s.unwritten.set r.val (s.unwritten[r.val].filter (· ≠ w)) := rfl

/-! The fields after `loadModulus`. -/

@[simp] theorem State.loadModulus_v (s : State) (m : Nat) : (s.loadModulus m).v = s.v := rfl
@[simp] theorem State.loadModulus_n (s : State) (m : Nat) : (s.loadModulus m).n = m := rfl
@[simp] theorem State.loadModulus_mv (s : State) (m : Nat) : (s.loadModulus m).mv = true := rfl
@[simp] theorem State.loadModulus_ie (s : State) (m : Nat) : (s.loadModulus m).ie = s.ie := rfl
@[simp] theorem State.loadModulus_busy (s : State) (m : Nat) : (s.loadModulus m).busy = s.busy := rfl
@[simp] theorem State.loadModulus_done (s : State) (m : Nat) : (s.loadModulus m).done = s.done := rfl
@[simp] theorem State.loadModulus_ovr (s : State) (m : Nat) : (s.loadModulus m).ovr = s.ovr := rfl
@[simp] theorem State.loadModulus_err (s : State) (m : Nat) : (s.loadModulus m).err = s.err := rfl
@[simp] theorem State.loadModulus_cmd (s : State) (m : Nat) : (s.loadModulus m).cmd = s.cmd := rfl
@[simp] theorem State.loadModulus_cmdcnt (s : State) (m : Nat) : (s.loadModulus m).cmdcnt = s.cmdcnt := rfl
@[simp] theorem State.loadModulus_plat (s : State) (m : Nat) : (s.loadModulus m).plat = s.plat := rfl
@[simp] theorem State.loadModulus_agenda (s : State) (m : Nat) : (s.loadModulus m).agenda = s.agenda := rfl
@[simp] theorem State.loadModulus_resp (s : State) (m : Nat) : (s.loadModulus m).resp = s.resp := rfl
@[simp] theorem State.loadModulus_draws (s : State) (m : Nat) : (s.loadModulus m).draws = s.draws := rfl
@[simp] theorem State.loadModulus_unwritten (s : State) (m : Nat) : (s.loadModulus m).unwritten = s.unwritten := rfl
@[simp] theorem State.loadModulus_readReg (s : State) (m : Nat) (i : Reg) : (s.loadModulus m).readReg i = s.readReg i := rfl
@[simp] theorem State.loadModulus_regWritten (s : State) (m : Nat) (i : Reg) : (s.loadModulus m).regWritten i = s.regWritten i := rfl

/-! The fields after `finish`. -/

@[simp] theorem State.finish_v (s : State) (c : BitVec 4) : (s.finish c).v = s.v := rfl
@[simp] theorem State.finish_n (s : State) (c : BitVec 4) : (s.finish c).n = s.n := rfl
@[simp] theorem State.finish_mv (s : State) (c : BitVec 4) : (s.finish c).mv = s.mv := rfl
@[simp] theorem State.finish_ie (s : State) (c : BitVec 4) : (s.finish c).ie = s.ie := rfl
@[simp] theorem State.finish_busy (s : State) (c : BitVec 4) : (s.finish c).busy = false := rfl
@[simp] theorem State.finish_done (s : State) (c : BitVec 4) : (s.finish c).done = true := rfl
@[simp] theorem State.finish_ovr (s : State) (c : BitVec 4) : (s.finish c).ovr = s.ovr := rfl
@[simp] theorem State.finish_err (s : State) (c : BitVec 4) : (s.finish c).err = c := rfl
@[simp] theorem State.finish_cmd (s : State) (c : BitVec 4) : (s.finish c).cmd = s.cmd := rfl
@[simp] theorem State.finish_cmdcnt (s : State) (c : BitVec 4) : (s.finish c).cmdcnt = s.cmdcnt + 1#32 := rfl
@[simp] theorem State.finish_plat (s : State) (c : BitVec 4) : (s.finish c).plat = s.plat := rfl
@[simp] theorem State.finish_agenda (s : State) (c : BitVec 4) : (s.finish c).agenda = s.agenda := rfl
@[simp] theorem State.finish_resp (s : State) (c : BitVec 4) : (s.finish c).resp = s.resp := rfl
@[simp] theorem State.finish_draws (s : State) (c : BitVec 4) : (s.finish c).draws = s.draws := rfl
@[simp] theorem State.finish_unwritten (s : State) (c : BitVec 4) : (s.finish c).unwritten = s.unwritten := rfl
@[simp] theorem State.finish_readReg (s : State) (c : BitVec 4) (i : Reg) : (s.finish c).readReg i = s.readReg i := rfl
@[simp] theorem State.finish_regWritten (s : State) (c : BitVec 4) (i : Reg) : (s.finish c).regWritten i = s.regWritten i := rfl

/-! The fields after `accept`. -/

@[simp] theorem State.accept_v (s : State) (w : Word) : (s.accept w).v = s.v := rfl
@[simp] theorem State.accept_n (s : State) (w : Word) : (s.accept w).n = s.n := rfl
@[simp] theorem State.accept_mv (s : State) (w : Word) : (s.accept w).mv = s.mv := rfl
@[simp] theorem State.accept_ie (s : State) (w : Word) : (s.accept w).ie = s.ie := rfl
@[simp] theorem State.accept_busy (s : State) (w : Word) : (s.accept w).busy = true := rfl
@[simp] theorem State.accept_done (s : State) (w : Word) : (s.accept w).done = false := rfl
@[simp] theorem State.accept_ovr (s : State) (w : Word) : (s.accept w).ovr = s.ovr := rfl
@[simp] theorem State.accept_err (s : State) (w : Word) : (s.accept w).err = 0#4 := rfl
@[simp] theorem State.accept_cmd (s : State) (w : Word) : (s.accept w).cmd = w := rfl
@[simp] theorem State.accept_cmdcnt (s : State) (w : Word) : (s.accept w).cmdcnt = s.cmdcnt := rfl
@[simp] theorem State.accept_plat (s : State) (w : Word) : (s.accept w).plat = s.plat := rfl
@[simp] theorem State.accept_agenda (s : State) (w : Word) : (s.accept w).agenda = s.agenda := rfl
@[simp] theorem State.accept_resp (s : State) (w : Word) : (s.accept w).resp = s.resp := rfl
@[simp] theorem State.accept_draws (s : State) (w : Word) : (s.accept w).draws = s.draws := rfl
@[simp] theorem State.accept_unwritten (s : State) (w : Word) : (s.accept w).unwritten = s.unwritten := rfl
@[simp] theorem State.accept_readReg (s : State) (w : Word) (i : Reg) : (s.accept w).readReg i = s.readReg i := rfl
@[simp] theorem State.accept_regWritten (s : State) (w : Word) (i : Reg) : (s.accept w).regWritten i = s.regWritten i := rfl

/-! The fields after `statusWrite`. -/

@[simp] theorem State.statusWrite_v (s : State) (d : Word) : (s.statusWrite d).v = s.v := rfl
@[simp] theorem State.statusWrite_n (s : State) (d : Word) : (s.statusWrite d).n = s.n := rfl
@[simp] theorem State.statusWrite_mv (s : State) (d : Word) : (s.statusWrite d).mv = s.mv := rfl
@[simp] theorem State.statusWrite_ie (s : State) (d : Word) : (s.statusWrite d).ie = s.ie := rfl
@[simp] theorem State.statusWrite_busy (s : State) (d : Word) : (s.statusWrite d).busy = s.busy := rfl
@[simp] theorem State.statusWrite_done (s : State) (d : Word) : (s.statusWrite d).done = (s.done && !d.getLsbD 1) := rfl
@[simp] theorem State.statusWrite_ovr (s : State) (d : Word) : (s.statusWrite d).ovr = (s.ovr && !d.getLsbD 3) := rfl
@[simp] theorem State.statusWrite_err (s : State) (d : Word) : (s.statusWrite d).err = s.err := rfl
@[simp] theorem State.statusWrite_cmd (s : State) (d : Word) : (s.statusWrite d).cmd = s.cmd := rfl
@[simp] theorem State.statusWrite_cmdcnt (s : State) (d : Word) : (s.statusWrite d).cmdcnt = s.cmdcnt := rfl
@[simp] theorem State.statusWrite_plat (s : State) (d : Word) : (s.statusWrite d).plat = s.plat := rfl
@[simp] theorem State.statusWrite_agenda (s : State) (d : Word) : (s.statusWrite d).agenda = s.agenda := rfl
@[simp] theorem State.statusWrite_resp (s : State) (d : Word) : (s.statusWrite d).resp = s.resp := rfl
@[simp] theorem State.statusWrite_draws (s : State) (d : Word) : (s.statusWrite d).draws = s.draws := rfl
@[simp] theorem State.statusWrite_unwritten (s : State) (d : Word) : (s.statusWrite d).unwritten = s.unwritten := rfl
@[simp] theorem State.statusWrite_readReg (s : State) (d : Word) (i : Reg) : (s.statusWrite d).readReg i = s.readReg i := rfl
@[simp] theorem State.statusWrite_regWritten (s : State) (d : Word) (i : Reg) : (s.statusWrite d).regWritten i = s.regWritten i := rfl

/-! The fields after `setIe`. -/

@[simp] theorem State.setIe_v (s : State) (d : Word) : (s.setIe d).v = s.v := rfl
@[simp] theorem State.setIe_n (s : State) (d : Word) : (s.setIe d).n = s.n := rfl
@[simp] theorem State.setIe_mv (s : State) (d : Word) : (s.setIe d).mv = s.mv := rfl
@[simp] theorem State.setIe_ie (s : State) (d : Word) : (s.setIe d).ie = d.getLsbD 0 := rfl
@[simp] theorem State.setIe_busy (s : State) (d : Word) : (s.setIe d).busy = s.busy := rfl
@[simp] theorem State.setIe_done (s : State) (d : Word) : (s.setIe d).done = s.done := rfl
@[simp] theorem State.setIe_ovr (s : State) (d : Word) : (s.setIe d).ovr = s.ovr := rfl
@[simp] theorem State.setIe_err (s : State) (d : Word) : (s.setIe d).err = s.err := rfl
@[simp] theorem State.setIe_cmd (s : State) (d : Word) : (s.setIe d).cmd = s.cmd := rfl
@[simp] theorem State.setIe_cmdcnt (s : State) (d : Word) : (s.setIe d).cmdcnt = s.cmdcnt := rfl
@[simp] theorem State.setIe_plat (s : State) (d : Word) : (s.setIe d).plat = s.plat := rfl
@[simp] theorem State.setIe_agenda (s : State) (d : Word) : (s.setIe d).agenda = s.agenda := rfl
@[simp] theorem State.setIe_resp (s : State) (d : Word) : (s.setIe d).resp = s.resp := rfl
@[simp] theorem State.setIe_draws (s : State) (d : Word) : (s.setIe d).draws = s.draws := rfl
@[simp] theorem State.setIe_unwritten (s : State) (d : Word) : (s.setIe d).unwritten = s.unwritten := rfl
@[simp] theorem State.setIe_readReg (s : State) (d : Word) (i : Reg) : (s.setIe d).readReg i = s.readReg i := rfl
@[simp] theorem State.setIe_regWritten (s : State) (d : Word) (i : Reg) : (s.setIe d).regWritten i = s.regWritten i := rfl

/-! The fields after `refuseAccess`. -/

@[simp] theorem State.refuseAccess_v (s : State) : s.refuseAccess.v = s.v := rfl
@[simp] theorem State.refuseAccess_n (s : State) : s.refuseAccess.n = s.n := rfl
@[simp] theorem State.refuseAccess_mv (s : State) : s.refuseAccess.mv = s.mv := rfl
@[simp] theorem State.refuseAccess_ie (s : State) : s.refuseAccess.ie = s.ie := rfl
@[simp] theorem State.refuseAccess_busy (s : State) : s.refuseAccess.busy = s.busy := rfl
@[simp] theorem State.refuseAccess_done (s : State) : s.refuseAccess.done = s.done := rfl
@[simp] theorem State.refuseAccess_ovr (s : State) : s.refuseAccess.ovr = true := rfl
@[simp] theorem State.refuseAccess_err (s : State) : s.refuseAccess.err = s.err := rfl
@[simp] theorem State.refuseAccess_cmd (s : State) : s.refuseAccess.cmd = s.cmd := rfl
@[simp] theorem State.refuseAccess_cmdcnt (s : State) : s.refuseAccess.cmdcnt = s.cmdcnt := rfl
@[simp] theorem State.refuseAccess_plat (s : State) : s.refuseAccess.plat = s.plat := rfl
@[simp] theorem State.refuseAccess_agenda (s : State) : s.refuseAccess.agenda = s.agenda := rfl
@[simp] theorem State.refuseAccess_resp (s : State) : s.refuseAccess.resp = s.resp := rfl
@[simp] theorem State.refuseAccess_draws (s : State) : s.refuseAccess.draws = s.draws := rfl
@[simp] theorem State.refuseAccess_unwritten (s : State) : s.refuseAccess.unwritten = s.unwritten := rfl
@[simp] theorem State.refuseAccess_readReg (s : State) (i : Reg) : s.refuseAccess.readReg i = s.readReg i := rfl
@[simp] theorem State.refuseAccess_regWritten (s : State) (i : Reg) : s.refuseAccess.regWritten i = s.regWritten i := rfl

/-! The fields after `softReset`. -/

@[simp] theorem State.softReset_v (s : State) : s.softReset.v = s.v := rfl
@[simp] theorem State.softReset_n (s : State) : s.softReset.n = Config.unspecifiedModulus s.draws % 2 ^ s.plat.opw := rfl
@[simp] theorem State.softReset_mv (s : State) : s.softReset.mv = false := rfl
@[simp] theorem State.softReset_ie (s : State) : s.softReset.ie = false := rfl
@[simp] theorem State.softReset_busy (s : State) : s.softReset.busy = false := rfl
@[simp] theorem State.softReset_done (s : State) : s.softReset.done = false := rfl
@[simp] theorem State.softReset_ovr (s : State) : s.softReset.ovr = false := rfl
@[simp] theorem State.softReset_err (s : State) : s.softReset.err = 0#4 := rfl
@[simp] theorem State.softReset_cmd (s : State) : s.softReset.cmd = 0x00000000#32 := rfl
@[simp] theorem State.softReset_cmdcnt (s : State) : s.softReset.cmdcnt = 0#32 := rfl
@[simp] theorem State.softReset_plat (s : State) : s.softReset.plat = s.plat := rfl
@[simp] theorem State.softReset_agenda (s : State) : s.softReset.agenda = s.agenda := rfl
@[simp] theorem State.softReset_resp (s : State) : s.softReset.resp = s.resp := rfl
@[simp] theorem State.softReset_draws (s : State) : s.softReset.draws = s.draws + 1 := rfl
@[simp] theorem State.softReset_unwritten (s : State) : s.softReset.unwritten = s.unwritten := rfl
@[simp] theorem State.softReset_readReg (s : State) (i : Reg) : s.softReset.readReg i = s.readReg i := rfl
@[simp] theorem State.softReset_regWritten (s : State) (i : Reg) : s.softReset.regWritten i = s.regWritten i := rfl

/-! The fields after `hardReset`. -/

@[simp] theorem State.hardReset_v (s : State) : s.hardReset.v = Vector.ofFn fun i : Fin 8 => Config.unspecifiedReg s.draws i.val % 2 ^ s.plat.opw := rfl
@[simp] theorem State.hardReset_n (s : State) : s.hardReset.n = Config.unspecifiedModulus s.draws % 2 ^ s.plat.opw := rfl
@[simp] theorem State.hardReset_mv (s : State) : s.hardReset.mv = false := rfl
@[simp] theorem State.hardReset_ie (s : State) : s.hardReset.ie = false := rfl
@[simp] theorem State.hardReset_busy (s : State) : s.hardReset.busy = false := rfl
@[simp] theorem State.hardReset_done (s : State) : s.hardReset.done = false := rfl
@[simp] theorem State.hardReset_ovr (s : State) : s.hardReset.ovr = false := rfl
@[simp] theorem State.hardReset_err (s : State) : s.hardReset.err = 0#4 := rfl
@[simp] theorem State.hardReset_cmd (s : State) : s.hardReset.cmd = 0x00000000#32 := rfl
@[simp] theorem State.hardReset_cmdcnt (s : State) : s.hardReset.cmdcnt = 0#32 := rfl
@[simp] theorem State.hardReset_plat (s : State) : s.hardReset.plat = s.plat := rfl
@[simp] theorem State.hardReset_agenda (s : State) : s.hardReset.agenda = s.agenda := rfl
@[simp] theorem State.hardReset_resp (s : State) : s.hardReset.resp = s.resp := rfl
@[simp] theorem State.hardReset_draws (s : State) : s.hardReset.draws = s.draws + 1 := rfl
@[simp] theorem State.hardReset_unwritten (s : State) : s.hardReset.unwritten = Vector.replicate 8 (List.range s.plat.nw) := rfl

/-! The fields after `respond`. -/

@[simp] theorem State.respond_v (s : State) (a : Response) : (s.respond a).v = s.v := rfl
@[simp] theorem State.respond_n (s : State) (a : Response) : (s.respond a).n = s.n := rfl
@[simp] theorem State.respond_mv (s : State) (a : Response) : (s.respond a).mv = s.mv := rfl
@[simp] theorem State.respond_ie (s : State) (a : Response) : (s.respond a).ie = s.ie := rfl
@[simp] theorem State.respond_busy (s : State) (a : Response) : (s.respond a).busy = s.busy := rfl
@[simp] theorem State.respond_done (s : State) (a : Response) : (s.respond a).done = s.done := rfl
@[simp] theorem State.respond_ovr (s : State) (a : Response) : (s.respond a).ovr = s.ovr := rfl
@[simp] theorem State.respond_err (s : State) (a : Response) : (s.respond a).err = s.err := rfl
@[simp] theorem State.respond_cmd (s : State) (a : Response) : (s.respond a).cmd = s.cmd := rfl
@[simp] theorem State.respond_cmdcnt (s : State) (a : Response) : (s.respond a).cmdcnt = s.cmdcnt := rfl
@[simp] theorem State.respond_plat (s : State) (a : Response) : (s.respond a).plat = s.plat := rfl
@[simp] theorem State.respond_agenda (s : State) (a : Response) : (s.respond a).agenda = s.agenda := rfl
@[simp] theorem State.respond_resp (s : State) (a : Response) : (s.respond a).resp = a := rfl
@[simp] theorem State.respond_draws (s : State) (a : Response) : (s.respond a).draws = s.draws := rfl
@[simp] theorem State.respond_unwritten (s : State) (a : Response) : (s.respond a).unwritten = s.unwritten := rfl
@[simp] theorem State.respond_readReg (s : State) (a : Response) (i : Reg) : (s.respond a).readReg i = s.readReg i := rfl
@[simp] theorem State.respond_regWritten (s : State) (a : Response) (i : Reg) : (s.respond a).regWritten i = s.regWritten i := rfl

/-! The fields after `draw`. -/

@[simp] theorem State.draw_v (s : State) : s.draw.v = s.v := rfl
@[simp] theorem State.draw_n (s : State) : s.draw.n = s.n := rfl
@[simp] theorem State.draw_mv (s : State) : s.draw.mv = s.mv := rfl
@[simp] theorem State.draw_ie (s : State) : s.draw.ie = s.ie := rfl
@[simp] theorem State.draw_busy (s : State) : s.draw.busy = s.busy := rfl
@[simp] theorem State.draw_done (s : State) : s.draw.done = s.done := rfl
@[simp] theorem State.draw_ovr (s : State) : s.draw.ovr = s.ovr := rfl
@[simp] theorem State.draw_err (s : State) : s.draw.err = s.err := rfl
@[simp] theorem State.draw_cmd (s : State) : s.draw.cmd = s.cmd := rfl
@[simp] theorem State.draw_cmdcnt (s : State) : s.draw.cmdcnt = s.cmdcnt := rfl
@[simp] theorem State.draw_plat (s : State) : s.draw.plat = s.plat := rfl
@[simp] theorem State.draw_agenda (s : State) : s.draw.agenda = s.agenda := rfl
@[simp] theorem State.draw_resp (s : State) : s.draw.resp = s.resp := rfl
@[simp] theorem State.draw_draws (s : State) : s.draw.draws = s.draws + 1 := rfl
@[simp] theorem State.draw_unwritten (s : State) : s.draw.unwritten = s.unwritten := rfl
@[simp] theorem State.draw_readReg (s : State) (i : Reg) : s.draw.readReg i = s.readReg i := rfl
@[simp] theorem State.draw_regWritten (s : State) (i : Reg) : s.draw.regWritten i = s.regWritten i := rfl

/-! Reading a register after a write of one. -/

theorem State.readReg_writeReg (s : State) (r i : Reg) (x : Nat) :
    (s.writeReg r x).readReg i = if i = r then x else s.readReg i := by
  simp only [State.readReg, State.writeReg_v, Vector.getElem_set, Fin.ext_iff, eq_comm]

@[simp] theorem State.readReg_writeReg_self (s : State) (r : Reg) (x : Nat) : (s.writeReg r x).readReg r = x := by
  simp [State.readReg_writeReg]

theorem State.readReg_writeRegWord (s : State) (r i : Reg) (w : Nat) (d : Word) :
    (s.writeRegWord r w d).readReg i = if i = r then setOperandWord (s.readReg r) w d else s.readReg i := by
  simp only [State.readReg, State.writeRegWord_v, Vector.getElem_set, Fin.ext_iff, eq_comm]

theorem State.unwritten_writeReg (s : State) (r i : Reg) (x : Nat) :
    (s.writeReg r x).unwritten[i.val] = if i = r then [] else s.unwritten[i.val] := by
  simp only [State.writeReg_unwritten, Vector.getElem_set, Fin.ext_iff, eq_comm]

theorem State.unwritten_writeRegWord (s : State) (r i : Reg) (w : Nat) (d : Word) :
    (s.writeRegWord r w d).unwritten[i.val] =
      if i = r then s.unwritten[r.val].filter (· ≠ w) else s.unwritten[i.val] := by
  simp only [State.writeRegWord_unwritten, Vector.getElem_set, Fin.ext_iff, eq_comm]

theorem State.hardReset_readReg (s : State) (i : Reg) :
    s.hardReset.readReg i = Config.unspecifiedReg s.draws i.val % 2 ^ s.plat.opw := by
  simp [State.readReg]

/-- Every register holds 0 in the reset state (notes/assumptions/3.md). -/
@[simp] theorem State.resetOn_readReg (p : Platform) (i : Reg) : (State.resetOn p).readReg i = 0 := by
  simp [State.readReg, State.resetOn]

end Sys2Proof.Machine
end

