-- ==== Sys2Proof/Laws/Ops.lean ====
section
/-! SUPPORT. What the shared operations of the command lifecycle can do, and what every meaning can do (R105, R112). -/

namespace Sys2Proof.Machine

@[simp] theorem State.complete_ok (s t : State) : s.complete (.ok t) = t.finish 0#4 := rfl

@[simp] theorem State.complete_error (s : State) (e : CmdError) : s.complete (.error e) = s.finish e.code := rfl

theorem State.withModulus_loaded {s : State} (h : s.mv = true) (k : Nat → Except CmdError State) :
    s.withModulus k = k s.n := by simp [State.withModulus, h]

theorem State.withModulus_none {s : State} (h : s.mv = false) (k : Nat → Except CmdError State) :
    s.withModulus k = .error .nomod := by simp [State.withModulus, h]

/-- The codes of R108 are 1 to 6. -/
theorem CmdError.code_range (e : CmdError) : 1 ≤ e.code.toNat ∧ e.code.toNat ≤ 6 := by cases e <;> decide

theorem CmdError.code_ne_zero (e : CmdError) : e.code ≠ 0#4 := by cases e <;> decide

/-- What Execute may leave without an error: nothing written (NOP), the destination written, or the modulus loaded
(SETMOD of a modulus that is not bad). -/
def Wrote (i : Instr) (s t : State) : Prop :=
  (i = .nop ∧ t = s) ∨ (∃ rd x, destOf i = some rd ∧ t = s.writeReg rd x) ∨
  (∃ rs1, i = .setmod rs1 ∧ badModulus (s.readReg rs1) = false ∧ t = s.loadModulus (s.readReg rs1))

/-- One way a completion can go: an error with nothing written, or the writes of Execute committed. -/
def Completes (i : Instr) (s : State) (r : Except CmdError State) : Prop := ∀ t, r = .ok t → Wrote i s t

theorem Completes.error {i : Instr} {s : State} {e : CmdError} : Completes i s (.error e) := by
  intro t h; cases h

theorem Completes.write {i : Instr} {s : State} {rd : Reg} (h : destOf i = some rd) (x : Nat) :
    Completes i s (.ok (s.writeReg rd x)) := by
  intro t ht; cases ht; exact .inr (.inl ⟨rd, x, h, rfl⟩)

theorem Completes.ite {i : Instr} {s : State} {c : Prop} [Decidable c] {a b : Except CmdError State}
    (ha : Completes i s a) (hb : Completes i s b) : Completes i s (if c then a else b) := by
  split
  · exact ha
  · exact hb

theorem Completes.withModulus {i : Instr} {s : State} {k : Nat → Except CmdError State}
    (h : Completes i s (k s.n)) : Completes i s (s.withModulus k) := Completes.ite h .error

/-- What Execute of MODINV gives: RANGE, NOINV, or the inverse (R101). -/
theorem inverseResult_cases (a m : Nat) :
    (m < 2 ∧ inverseResult a m = .error .range) ∨
    (2 ≤ m ∧ Nat.gcd a m ≠ 1 ∧ inverseResult a m = .error .noinv) ∨
    (2 ≤ m ∧ Nat.gcd a m = 1 ∧ ∃ x, 1 ≤ x ∧ x < m ∧ a * x % m = 1 ∧ inverseResult a m = .ok x) := by
  have hg : Nat.gcd (a % m) m = Nat.gcd a m := by rw [← Nat.gcd_rec, Nat.gcd_comm]
  unfold inverseResult
  by_cases hm : m < 2
  · exact .inl ⟨hm, by simp [hm]⟩
  · by_cases hc : Nat.gcd a m = 1
    · obtain ⟨h1, h2, h3⟩ := modInv_spec (by omega) (hg.trans hc)
      rw [Nat.mod_mul_mod] at h3
      exact .inr (.inr ⟨by omega, hc, _, h1, h2, h3, by simp [hm, hg, hc]⟩)
    · exact .inr (.inl ⟨by omega, hc, by simp [hm, hg, hc]⟩)

theorem completes_inverse {rd rs1 rs2 : Reg} {s : State} (a m : Nat) :
    Completes (.modinv rd rs1 rs2) s ((inverseResult a m).map (s.writeReg rd)) := by
  unfold inverseResult
  split
  · exact .error
  · split
    · exact .error
    · exact .write rfl _

/-- Every meaning is a completion: it commits what Execute wrote, or an error and nothing else (R105, R112). -/
theorem exec_completes (i : Instr) (s : State) : ∃ r, exec i s = .next (s.complete r) ∧ Completes i s r := by
  cases i with
  | nop => exact ⟨_, rfl, fun t h => by cases h; exact .inl ⟨rfl, rfl⟩⟩
  | mov rd rs1 => exact ⟨_, rfl, .write rfl _⟩
  | ldi rd imm => exact ⟨_, rfl, .write rfl _⟩
  | setmod rs1 =>
    refine ⟨_, rfl, ?_⟩
    split
    · exact .error
    · next h => exact fun t ht => by cases ht; exact .inr (.inr ⟨rs1, rfl, by simpa using h, rfl⟩)
  | montmul rd rs1 rs2 => exact ⟨_, rfl, .withModulus (.ite .error (.write rfl _))⟩
  | tomont rd rs1 => exact ⟨_, rfl, .withModulus (.ite .error (.write rfl _))⟩
  | frommont rd rs1 => exact ⟨_, rfl, .withModulus (.ite .error (.write rfl _))⟩
  | modexp rd rs1 rs2 => exact ⟨_, rfl, .withModulus (.ite .error (.write rfl _))⟩
  | modexpChk rd rs1 rs2 => exact ⟨_, rfl, .withModulus (.ite .error (.write rfl _))⟩
  | modmul rd rs1 rs2 => exact ⟨_, rfl, .withModulus (.write rfl _)⟩
  | modred rd rs1 rs2 => exact ⟨_, rfl, .withModulus (.write rfl _)⟩
  | gcd rd rs1 rs2 => exact ⟨_, rfl, .write rfl _⟩
  | modinv rd rs1 rs2 => exact ⟨_, rfl, completes_inverse _ _⟩

end Sys2Proof.Machine
end

