-- ==== Sys2Proof/Laws/PerInstr.lean ====
section
/-! SUPPORT. Per instruction: its command word matches the row of the opcode map that bears its name (R70). -/

namespace Sys2Proof.Laws.RowAccepts

open Sys2Proof

/-- The instruction's word is one that the row of its own mnemonic accepts. -/
def Statement (i : Instr) : Prop := ∃ row ∈ opcodeMap, row.mnemonic = i.mnemonic ∧ row.accepts (encode i) = true

/-- Format I leaves the opcode and bit 11 as R66 fixes them, whatever the immediate. -/
theorem formatI_fixed_bits (rd : Reg) (x : Word) : (0x02#32 ||| (regBits rd <<< 8) ||| (x <<< 12)) &&& 0x000008FF#32 = 0x02#32 := by
  have hx : (x <<< 12) &&& 0x000008FF#32 = 0#32 := by
    apply BitVec.eq_of_getLsbD_eq
    intro i hi
    interval_cases i <;> simp
  have hr : ∀ r : Reg, (0x02#32 ||| (regBits r <<< 8)) &&& 0x000008FF#32 = 0x02#32 := by decide
  have hd : (0x02#32 ||| (regBits rd <<< 8) ||| (x <<< 12)) &&& 0x000008FF#32 =
      ((0x02#32 ||| (regBits rd <<< 8)) &&& 0x000008FF#32) ||| ((x <<< 12) &&& 0x000008FF#32) := by
    apply BitVec.eq_of_getLsbD_eq
    intro i hi
    simp only [BitVec.getLsbD_and, BitVec.getLsbD_or, Bool.and_or_distrib_right]
  rw [hd, hr, hx, BitVec.or_zero]

theorem nop : Statement .nop := ⟨opcodeMap[0], by simp [opcodeMap, opcodeMapControl], rfl, by decide⟩

theorem mov (rd rs1 : Reg) : Statement (.mov rd rs1) :=
  ⟨opcodeMap[1], by simp [opcodeMap, opcodeMapControl], rfl, by revert rd rs1; decide +kernel⟩

theorem ldi (rd : Reg) (imm : Nat) : Statement (.ldi rd imm) :=
  ⟨opcodeMap[2], by simp [opcodeMap, opcodeMapControl], rfl,
    beq_iff_eq.mpr (formatI_fixed_bits rd (BitVec.ofNat 32 imm))⟩

theorem setmod (rs1 : Reg) : Statement (.setmod rs1) :=
  ⟨opcodeMap[3], by simp [opcodeMap, opcodeMapControl], rfl, by revert rs1; decide +kernel⟩

theorem montmul (rd rs1 rs2 : Reg) : Statement (.montmul rd rs1 rs2) :=
  ⟨opcodeMap[4], by simp [opcodeMap, opcodeMapControl, opcodeMapUnits], rfl, by revert rd rs1 rs2; decide +kernel⟩

theorem tomont (rd rs1 : Reg) : Statement (.tomont rd rs1) :=
  ⟨opcodeMap[5], by simp [opcodeMap, opcodeMapControl, opcodeMapUnits], rfl, by revert rd rs1; decide +kernel⟩

theorem frommont (rd rs1 : Reg) : Statement (.frommont rd rs1) :=
  ⟨opcodeMap[6], by simp [opcodeMap, opcodeMapControl, opcodeMapUnits], rfl, by revert rd rs1; decide +kernel⟩

theorem modexp (rd rs1 rs2 : Reg) : Statement (.modexp rd rs1 rs2) :=
  ⟨opcodeMap[7], by simp [opcodeMap, opcodeMapControl, opcodeMapUnits], rfl, by revert rd rs1 rs2; decide +kernel⟩

theorem modexpChk (rd rs1 rs2 : Reg) : Statement (.modexpChk rd rs1 rs2) :=
  ⟨opcodeMap[8], by simp [opcodeMap, opcodeMapControl, opcodeMapUnits], rfl, by revert rd rs1 rs2; decide +kernel⟩

theorem modmul (rd rs1 rs2 : Reg) : Statement (.modmul rd rs1 rs2) :=
  ⟨opcodeMap[9], by simp [opcodeMap, opcodeMapControl, opcodeMapUnits], rfl, by revert rd rs1 rs2; decide +kernel⟩

theorem modred (rd rs1 rs2 : Reg) : Statement (.modred rd rs1 rs2) :=
  ⟨opcodeMap[10], by simp [opcodeMap, opcodeMapControl, opcodeMapUnits], rfl, by revert rd rs1 rs2; decide +kernel⟩

theorem gcd (rd rs1 rs2 : Reg) : Statement (.gcd rd rs1 rs2) :=
  ⟨opcodeMap[11], by simp [opcodeMap, opcodeMapControl, opcodeMapUnits], rfl, by revert rd rs1 rs2; decide +kernel⟩

theorem modinv (rd rs1 rs2 : Reg) : Statement (.modinv rd rs1 rs2) :=
  ⟨opcodeMap[12], by simp [opcodeMap, opcodeMapControl, opcodeMapUnits], rfl, by revert rd rs1 rs2; decide +kernel⟩

end Sys2Proof.Laws.RowAccepts
end

