-- ==== Sys2Proof/Laws/Step.lean ====
section
/-! SUPPORT. What one step can do: the window's address arithmetic (R38, R62), one access of the host (R48, R49), and the turn
that a step takes (R18). -/

namespace Sys2Proof.Machine

/-! The address arithmetic of the window. -/

theorem Platform.legal_iff (p : Platform) : p.legal = true ↔
    p.opw % 32 = 0 ∧ 64 ≤ p.opw ∧ p.opw ≤ 4096 ∧ p.base % 0x2000 = 0 ∧ p.mapping = .device := by
  simp [Platform.legal, Config.windowSize, and_assoc]

/-- OPW is NW words of 32 bits (R6). -/
theorem Platform.opw_eq {p : Platform} (h : p.legal = true) : p.opw = 32 * p.nw ∧ 2 ≤ p.nw ∧ p.nw ≤ 128 := by
  obtain ⟨h1, h2, h3, -⟩ := (Platform.legal_iff p).mp h
  unfold Platform.nw
  omega

/-- A 32-bit access at `BASE + off`, `off` a multiple of 4 in the window, hits `off` (R42, R62). -/
theorem select_word (p : Platform) {off : Nat} (hlt : off < 0x2000) (h4 : off % 4 = 0) :
    select p (addrOf p off) .word = .hit (BitVec.ofNat 13 off) := by
  have hoff : (offsetOf p (addrOf p off)) = BitVec.ofNat 13 off := by
    simp [offsetOf, addrOf]
  have hin : inWindow p (addrOf p off) = true := by simp [inWindow, addrOf, Config.windowSize, hlt]
  simp [select, hin, hoff, h4]

/-- What an access that hits is (R38, R42). -/
theorem select_hit {p : Platform} {addr : Nat} {width : Width} {off : Offset} (h : select p addr width = .hit off) :
    width = .word ∧ off.toNat % 4 = 0 ∧ addr = addrOf p off.toNat := by
  simp only [select] at h
  split at h
  · next hin =>
    split at h
    · next hw =>
      cases h
      refine ⟨hw.1, hw.2, ?_⟩
      simp [inWindow, Config.windowSize] at hin
      simp only [addrOf, offsetOf, BitVec.toNat_ofNat]
      omega
    · cases h
  · cases h

/-- In the operand window, word `w` of `Vr` is where R40 puts it. -/
theorem operandOffset_fields (r : Reg) {w : Nat} (hw : w < 128) :
    inOperandWindow (BitVec.ofNat 13 (operandOffset r w)) = true ∧
    offsetReg (BitVec.ofNat 13 (operandOffset r w)) = r ∧
    offsetWord (BitVec.ofNat 13 (operandOffset r w)) = w ∧
    operandOffset r w < 0x2000 ∧ operandOffset r w % 4 = 0 := by
  have hr := r.isLt
  refine ⟨?_, ?_, ?_, ?_, ?_⟩
  · simp only [inOperandWindow, operandOffset, BitVec.getLsbD_ofNat, Nat.testBit_eq_decide_div_mod_eq]
    simp
    omega
  · apply Fin.ext
    simp only [offsetReg, operandOffset, BitVec.val_toFin, BitVec.extractLsb'_toNat, BitVec.toNat_ofNat,
      Nat.shiftRight_eq_div_pow]
    omega
  · simp only [offsetWord, operandOffset, BitVec.extractLsb'_toNat, BitVec.toNat_ofNat, Nat.shiftRight_eq_div_pow]
    omega
  · simp only [operandOffset]; omega
  · simp only [operandOffset]; omega

/-- The offsets up to 0x0FFC lie outside the operand window (R39). -/
theorem inOperandWindow_of_control {off : Nat} (h : off < 0x1000) : inOperandWindow (BitVec.ofNat 13 off) = false := by
  have hb : off.testBit 12 = false := Nat.testBit_lt_two_pow h
  simp only [inOperandWindow, BitVec.getLsbD_ofNat, hb, Bool.and_false]

/-- Offsets of the window are told apart by their numbers. -/
theorem offset_ne {a b : Nat} (ha : a < 0x2000) (hb : b < 0x2000) (h : a ≠ b) : BitVec.ofNat 13 a ≠ BitVec.ofNat 13 b := by
  intro he
  have := congrArg BitVec.toNat he
  simp only [BitVec.toNat_ofNat] at this
  omega

/-- A read of the operand window by the number of its offset (R48). -/
theorem busRead_operand (s : State) (r : Reg) {w : Nat} (hw : w < 128) :
    s.busRead (BitVec.ofNat 13 (operandOffset r w)) =
      if w < s.plat.nw then if s.busy then Config.busyRead s.draws else operandWord (s.readReg r) w else 0#32 := by
  obtain ⟨hin, hr, hword, hlt, -⟩ := operandOffset_fields r hw
  have hne : ∀ k, k < 0x1000 → BitVec.ofNat 13 (operandOffset r w) ≠ BitVec.ofNat 13 k := fun k hk =>
    offset_ne hlt (by omega) (by simp only [operandOffset]; omega)
  rw [State.busRead, if_neg (hne 0x000 (by decide)), if_neg (hne 0x004 (by decide)), if_neg (hne 0x008 (by decide)),
    if_neg (hne 0x00C (by decide)), if_neg (hne 0x010 (by decide)), if_neg (hne 0x014 (by decide)), if_pos hin]
  simp only [State.readOperandWindow, State.isOperandWord, hin, hr, hword, Bool.true_and, decide_eq_true_eq]

/-- A write in the operand window by the number of its offset (R49). -/
theorem busWrite_operand (s : State) (r : Reg) (d : Word) {w : Nat} (hw : w < 128) :
    s.busWrite (BitVec.ofNat 13 (operandOffset r w)) d =
      if s.busy then s.refuseAccess else if w < s.plat.nw then s.writeRegWord r w d else s := by
  obtain ⟨hin, hr, hword, hlt, -⟩ := operandOffset_fields r hw
  have hne : ∀ k, k < 0x1000 → BitVec.ofNat 13 (operandOffset r w) ≠ BitVec.ofNat 13 k := fun k hk =>
    offset_ne hlt (by omega) (by simp only [operandOffset]; omega)
  rw [State.busWrite, if_neg (hne 0x008 (by decide)), if_neg (hne 0x00C (by decide)), if_neg (hne 0x010 (by decide)),
    if_pos hin, State.operandWrite, hr, hword]

/-! One access of the host. -/

/-- `R off`: the turn of a 32-bit read at an aligned offset (R17, R48). -/
theorem takeTurn_hostR (s : State) {off : Nat} (hlt : off < 0x2000) (h4 : off % 4 = 0) :
    takeTurn (hostR s.plat off) s = .next (s.hostRead (BitVec.ofNat 13 off)) := by
  simp only [hostR, takeTurn, hostAccess, select_word _ hlt h4]

/-- `W off, value`: the turn of a 32-bit write at an aligned offset (R17, R49). -/
theorem takeTurn_hostW (s : State) (d : Word) {off : Nat} (hlt : off < 0x2000) (h4 : off % 4 = 0) :
    takeTurn (hostW s.plat off d) s = .next (s.hostWrite (BitVec.ofNat 13 off) d) := by
  simp only [hostW, takeTurn, hostAccess, select_word _ hlt h4]

/-- A write of the host does one of these to the block (R49). -/
inductive WriteEffect (s : State) : State → Prop where
  | softReset : WriteEffect s s.softReset
  | setIe (d : Word) : WriteEffect s (s.setIe d)
  | statusWrite (d : Word) : WriteEffect s (s.statusWrite d)
  | refused (h : s.busy = true) : WriteEffect s s.refuseAccess
  | accepted (h : s.busy = false) (w : Word) : WriteEffect s (s.accept w)
  | operand (h : s.busy = false) (r : Reg) (w : Nat) (hw : w < s.plat.nw) (d : Word) : WriteEffect s (s.writeRegWord r w d)
  | ignored : WriteEffect s s

theorem busWrite_effect (s : State) (off : Offset) (d : Word) : WriteEffect s (s.busWrite off d) := by
  unfold State.busWrite State.ctrlWrite State.cmdWrite State.operandWrite
  split
  · split
    · exact .softReset
    · exact .setIe d
  · split
    · exact .statusWrite d
    · split
      · split
        · next hb => exact .refused hb
        · next hb => exact .accepted (by simpa using hb) d
      · split
        · split
          · next hb => exact .refused hb
          · next hb =>
            split
            · next hw => exact .operand (by simpa using hb) _ _ hw d
            · exact .ignored
        · exact .ignored

/-- What one access of the host can do when it is no bus error: a read answers and changes nothing else in the block, a write
has one of `WriteEffect`'s effects, an access outside the window reaches nothing (R38, R48, R49). -/
inductive AccessEffect (s : State) : State → Prop where
  | answered (a : Response) : AccessEffect s (s.respond a)
  | drawn (a : Response) : AccessEffect s (s.respond a).draw
  | written {t : State} (h : WriteEffect s t) : AccessEffect s (t.respond .ack)

theorem hostAccess_effect {op : HostOp} {s t : State} (h : hostAccess op s = .next t) : AccessEffect s t := by
  unfold hostAccess at h
  split at h
  · split at h
    · cases h
      unfold State.hostRead
      split
      · exact .drawn _
      · exact .answered _
    · cases h
    · cases h; exact .answered _
  · split at h
    · cases h; exact .written (busWrite_effect _ _ _)
    · cases h
    · cases h; exact .answered _
  · split at h
    · cases h
    · cases h; exact .answered _

/-! One step. -/

theorem step_of_legal {s : State} (h : s.plat.legal = true) : step s = nextTurn s := by simp [step, h]

theorem nextTurn_cons {s : State} {t : Turn} {rest : List Turn} (h : s.agenda = t :: rest) :
    nextTurn s = takeTurn t { s with agenda := rest } := by simp [nextTurn, h]

/-- A step at a state whose agenda is `t` and then the rest of `s`'s. -/
theorem step_cons {s : State} (h : s.plat.legal = true) (t : Turn) :
    step { s with agenda := t :: s.agenda } = takeTurn t s := by
  rw [step_of_legal (s := { s with agenda := t :: s.agenda }) h, nextTurn_cons rfl]

theorem nextTurn_nil {s : State} (h : s.agenda = []) : nextTurn s = engineTurn s := by simp [nextTurn, h]

theorem completeCommand_of_decode {s : State} {i : Instr} (h : decode s.cmd = some i) : completeCommand s = exec i s := by
  simp [completeCommand, h]

/-- Every completion goes as `State.complete` says (R105): an error and nothing written, or what Execute of the decoded command
wrote. -/
theorem completeCommand_completes (s : State) : ∃ r, completeCommand s = .next (s.complete r) ∧
    ∀ t, r = .ok t → ∃ i, decode s.cmd = some i ∧ Wrote i s t := by
  unfold completeCommand
  split
  · next i hi =>
    obtain ⟨r, he, hc⟩ := exec_completes i s
    exact ⟨r, he, fun t ht => ⟨i, hi, hc t ht⟩⟩
  · exact ⟨_, rfl, fun t ht => by cases ht⟩

/-- What one step can do, on the state `u` whose agenda has lost the turn taken. -/
inductive StepEffect (u : State) : State → Prop where
  | completed (hb : u.busy = true) {r : Except CmdError State}
      (hr : ∀ t, r = .ok t → ∃ i, decode u.cmd = some i ∧ Wrote i u t) : StepEffect u (u.complete r)
  | idle (hb : u.busy = false) : StepEffect u u
  | access {t : State} (h : AccessEffect u t) : StepEffect u t
  | reset : StepEffect u u.hardReset

theorem engineTurn_effect {s t : State} (h : engineTurn s = .next t) : StepEffect s t := by
  unfold engineTurn at h
  split at h
  · next hb =>
    obtain ⟨r, he, hc⟩ := completeCommand_completes s
    rw [he] at h
    cases h
    exact .completed hb hc
  · next hb => cases h; exact .idle (by simpa using hb)

theorem takeTurn_effect {turn : Turn} {s t : State} (h : takeTurn turn s = .next t) : StepEffect s t := by
  cases turn with
  | host op => exact .access (hostAccess_effect h)
  | engine => exact engineTurn_effect h
  | rst => cases h; exact .reset

/-- Everything a step that answers a next state can have done. -/
theorem step_effect {s t : State} (h : step s = .next t) :
    s.plat.legal = true ∧ ∃ rest, StepEffect { s with agenda := rest } t := by
  unfold step at h
  split at h
  · next hl =>
    refine ⟨hl, ?_⟩
    unfold nextTurn at h
    split at h
    · next ha => exact ⟨[], by rw [← ha]; exact engineTurn_effect h⟩
    · next turn rest ha => exact ⟨rest, takeTurn_effect h⟩
  · cases h

end Sys2Proof.Machine
end

