-- ==== Sys2Proof/Laws/Safety.lean ====
section
/-! SUPPORT. What keeping away from R131's hazard buys: no access is refused; and what the strict machine can do (R21). -/

namespace Sys2Proof.Machine

/-- A write of the host is refused only at `CMD` or in the operand window, while busy (R49, R130). -/
theorem busWrite_ovr {s : State} {off : Offset} {d : Word} (h : (s.busWrite off d).ovr = true) :
    s.ovr = true ∨ (s.busy = true ∧ (off = 0x010#13 ∨ inOperandWindow off = true)) := by
  unfold State.busWrite State.ctrlWrite State.cmdWrite State.operandWrite at h
  split at h
  · split at h <;> simp_all
  · split at h
    · simp_all
    · split at h
      · next he => cases hb : s.busy <;> simp_all
      · split at h
        · next hw =>
          cases hb : s.busy <;> simp_all
          split at h <;> simp_all
        · exact .inl h

/-- A host that keeps to R131 never has an access refused: a step that is no hazard does not set OVR. -/
theorem no_overrun_without_hazard {s t : State} {op : HostOp} {rest : List Turn} (ha : s.agenda = .host op :: rest)
    (hz : s.hazard = false) (h : step s = .next t) (ho : t.ovr = true) : s.ovr = true := by
  have hl := (step_effect h).1
  rw [step_of_legal hl, nextTurn_cons ha] at h
  simp only [State.hazard, ha] at hz
  simp only [takeTurn, hostAccess] at h
  cases op with
  | fetch addr => dsimp only at h; split at h <;> cases h; exact ho
  | read addr width =>
    dsimp only at h
    split at h
    · cases h
      unfold State.hostRead at ho
      split at ho <;> exact ho
    · cases h
    · cases h; exact ho
  | write addr width d =>
    dsimp only at h
    split at h
    · next off hsel =>
      cases h
      rcases busWrite_ovr (s := { s with agenda := rest }) ho with h1 | ⟨hb, hoff⟩
      · exact h1
      · have hsel' : select s.plat addr width = .hit off := hsel
        have hb' : s.busy = true := hb
        simp [accessAddr, accessWidth, hsel', hazardOffset, hb'] at hz
        rcases hoff with rfl | hw
        · exact absurd rfl hz.1
        · rw [hw] at hz; cases hz.2
    · cases h
    · cases h; exact ho

/-! The strict machine. -/

/-- Where every operand register the turn reads has been written whole, the strict machine is `step`. -/
theorem strictStep_of_written {s : State} (h : ∀ r ∈ s.turnReads, s.regWritten r = true) : strictStep s = step s := by
  have hf : s.turnReads.find? (fun r => !s.regWritten r) = none := by simpa [List.find?_eq_none] using h
  unfold strictStep
  rw [hf]
  split
  · rfl
  · next hl => simp [step, hl]

/-- Where the turn reads a register with an unwritten word, the strict machine faults and names one. -/
theorem strictStep_of_unwritten {s : State} (hl : s.plat.legal = true) (h : ∃ r ∈ s.turnReads, s.regWritten r = false) :
    ∃ r ∈ s.turnReads, s.regWritten r = false ∧ strictStep s = .fault (.unwrittenRead r) := by
  cases hf : s.turnReads.find? (fun r => !s.regWritten r) with
  | none =>
    obtain ⟨r, hr, hw⟩ := h
    simpa [hw] using List.find?_eq_none.mp hf r hr
  | some r =>
    exact ⟨r, List.mem_of_find?_eq_some hf, by simpa using List.find?_some hf, by simp [strictStep, hl, hf]⟩

/-- The strict machine refuses what `step` refuses. -/
theorem strictStep_of_excluded {s : State} (hl : s.plat.legal = false) : strictStep s = .refused .excludedPlatform := by
  simp [strictStep, hl]

/-- A register counts as written when it has no unwritten word. -/
theorem regWritten_iff (s : State) (r : Reg) : s.regWritten r = true ↔ s.unwritten[r.val] = [] := by
  simp [State.regWritten]

/-- The turn of an idle host that reads word `w < NW` of `Vr` reads `Vr` (R21, R40). -/
theorem busReads_operand {s : State} (r : Reg) {w : Nat} (hb : s.busy = false) (hw : w < s.plat.nw) (h128 : w < 128) :
    s.busReads (BitVec.ofNat 13 (operandOffset r w)) = [r] := by
  obtain ⟨hin, hr, hword, -⟩ := operandOffset_fields r h128
  simp [State.busReads, State.isOperandWord, hin, hr, hword, hw, hb]

end Sys2Proof.Machine
end

