-- ==== Sys2Proof/Tests/Slice0.lean ====
section
/-! SUPPORT. Tests: expected results come from 95_test_vectors.md or from the rule named, never from the model. Then, for each
statement with hypotheses, a witness that meets them. -/

namespace Sys2Proof.Tests

open Sys2Proof.Machine Sys2Proof.Expect

/-- The outcome is a next state with this property. -/
def sat (o : Host.Outcome State Fault Refusal) (p : State → Bool) : Bool :=
  match o with
  | .next t => p t
  | .fault _ => false
  | .refused _ => false

/-- N = 3233 is loaded, every register is written (95_test_vectors.md section 3). -/
def demo : State :=
  { State.reset with
    v := #v[3233, 65, 17, 2790, 2753, 3120, 0, 2 ^ 64 - 1]
    n := 3233
    mv := true
    unwritten := Vector.replicate 8 [] }

/-- `demo` with `modexp.chk v3, v1, v2` in flight. -/
def demoBusy : State := { demo with busy := true, cmd := 0x00121320#32 }

/-- `demo` with other operands in V1 and V2. -/
def demoWith (a b : Nat) : State := { demo with v := #v[3233, a, b, 2790, 2753, 3120, 0, 2 ^ 64 - 1] }

/-! ## Well-formedness: an ill-formed term for each check -/

theorem test_ldi_immediate_of_21_bits_is_ill_formed : (Instr.ldi 0 (2 ^ 20)).wellFormed = false := by decide
theorem test_ldi_largest_immediate_is_well_formed : (Instr.ldi 0 1048575).wellFormed = true := by decide

/-! ## Decoding: words written out from R65, R66, R70 (V-ENC-1 to 11, P2, P3) -/

theorem test_decode_nop : decode 0x00000000#32 = some .nop := by decide
theorem test_decode_mov : decode 0x00001201#32 = some (.mov 2 1) := by decide
theorem test_decode_ldi : decode 0x10001202#32 = some (.ldi 2 65537) := by decide
theorem test_decode_ldi_largest : decode 0xFFFFF002#32 = some (.ldi 0 1048575) := by decide
theorem test_decode_setmod : decode 0x00003008#32 = some (.setmod 3) := by decide
theorem test_decode_montmul : decode 0x00022310#32 = some (.montmul 3 2 2) := by decide
theorem test_decode_tomont : decode 0x00001211#32 = some (.tomont 2 1) := by decide
theorem test_decode_frommont : decode 0x00003412#32 = some (.frommont 4 3) := by decide
theorem test_decode_modexp : decode 0x00043520#32 = some (.modexp 5 3 4) := by decide
theorem test_decode_modexp_chk : decode 0x00114520#32 = some (.modexpChk 5 4 1) := by decide
theorem test_decode_modmul : decode 0x00011530#32 = some (.modmul 5 1 1) := by decide
theorem test_decode_modred : decode 0x00016731#32 = some (.modred 7 6 1) := by decide
theorem test_decode_gcd : decode 0x00001240#32 = some (.gcd 2 1 0) := by decide
theorem test_decode_modinv : decode 0x00007641#32 = some (.modinv 6 7 0) := by decide

/-- V-ENC-12 to V-ENC-20. -/
theorem test_illegal_words : [0x00000100#32, 0x00000802#32, 0x00100010#32, 0x00108020#32, 0x80000020#32, 0x00010008#32,
    0x00000808#32, 0x00000003#32, 0x000000FF#32].map decode = List.replicate 9 none := by decide

theorem test_decode_table_word : decodeTableWord 32 0x00001341 = some (.modinv 3 1 0) := by decide

/-- R75, R76. -/
theorem test_assemble_ldi : assembleLine "ldi v2, 0x10001".toList = some (.ldi 2 65537) := by decide
theorem test_assemble_rejects_large_immediate : assembleLine "ldi v2, 1048576".toList = none := by decide
theorem test_assemble_decrypt : assembleLine "decrypt v5, v3, v4".toList = some (.modexp 5 3 4) := by decide
theorem test_disassemble_illegal : disassemble 0x00000003#32 = ".word 0x00000003" := by decide

/-! ## The commands (95_test_vectors.md section 3) -/

/-- V-CTL-1. -/
theorem test_nop_status : sat (exec .nop State.reset) (fun t => t.statusValue == 0x00000002#32 && t.cmdcnt == 1#32) = true := by decide
/-- V-CTL-2. -/
theorem test_mov : sat (exec (.mov 2 1) (demoWith 2790 0)) (fun t => t.readReg 2 == 2790 && t.readReg 1 == 2790) = true := by decide
/-- V-CTL-5: all 64 bits become the immediate. -/
theorem test_ldi_clears_high_bits : sat (exec (.ldi 7 0) demo) (fun t => t.readReg 7 == 0) = true := by decide
/-- V-CTL-4. -/
theorem test_ldi : sat (exec (.ldi 2 65537) demo) (fun t => t.readReg 2 == 65537 && t.err == 0#4) = true := by decide
/-- V-CTL-7. -/
theorem test_setmod_loads : sat (exec (.setmod 0) { demo with mv := false, n := 0 })
    (fun t => t.n == 3233 && t.statusValue == 0x00000006#32) = true := by decide
/-- V-CTL-8. -/
theorem test_setmod_rejects : sat (exec (.setmod 5) demo) (fun t => t.n == 3233 && t.statusValue == 0x00000036#32) = true := by decide
/-- V-MON-1. -/
theorem test_montmul : sat (exec (.montmul 2 1 1) demo) (fun t => t.readReg 2 == 794) = true := by decide
/-- V-MON-6. -/
theorem test_montmul_range : sat (exec (.montmul 3 0 1) demo) (fun t => t.err == 4#4 && t.readReg 3 == 2790) = true := by decide
/-- V-MON-8. -/
theorem test_tomont : sat (exec (.tomont 2 1) demo) (fun t => t.readReg 2 == 2565) = true := by decide
/-- V-MON-12. -/
theorem test_tomont_range : sat (exec (.tomont 2 0) demo) (fun t => t.err == 4#4 && t.readReg 2 == 17) = true := by decide
/-- V-MON-14. -/
theorem test_frommont : sat (exec (.frommont 2 1) demo) (fun t => t.readReg 2 == 3096) = true := by decide
/-- V-MON-17. -/
theorem test_frommont_range : sat (exec (.frommont 2 7) demo) (fun t => t.err == 4#4) = true := by decide
/-- V-EXP-2. -/
theorem test_modexp_decrypts : sat (exec (.modexp 5 3 4) demo) (fun t => t.readReg 5 == 65) = true := by decide
/-- V-EXP-4: `0^0 = 1`. -/
theorem test_modexp_zero_to_zero : sat (exec (.modexp 1 6 6) demo) (fun t => t.readReg 1 == 1) = true := by decide
/-- V-EXP-3. -/
theorem test_modexp_chk_encrypts : sat (exec (.modexpChk 3 1 2) (demoWith 65 65537)) (fun t => t.readReg 3 == 2790) = true := by decide
/-- V-EXP-9. -/
theorem test_modexp_chk_zero_plaintext : sat (exec (.modexpChk 3 6 2) demo) (fun t => t.err == 5#4 && t.readReg 3 == 2790) = true := by decide
/-- V-BAR-2. -/
theorem test_modmul_wide_operands : sat (exec (.modmul 1 7 7) demo) (fun t => t.readReg 1 == 408) = true := by decide
/-- V-BAR-6. -/
theorem test_modmul_without_modulus : sat (exec (.modmul 1 1 1) { demo with mv := false }) (fun t => t.err == 2#4 && t.readReg 1 == 65) = true := by decide
/-- V-BAR-13. -/
theorem test_modred : sat (exec (.modred 7 1 2) (demoWith 1 65)) (fun t => t.readReg 7 == 2094) = true := by decide
/-- V-BAR-11. -/
theorem test_modred_widest : sat (exec (.modred 1 7 7) demo) (fun t => t.readReg 1 == 1231) = true := by decide
/-- V-GCD-7, without a modulus. -/
theorem test_gcd : sat (exec (.gcd 1 7 2) { demoWith 65 (2 ^ 32 + 1) with mv := false }) (fun t => t.readReg 1 == 2 ^ 32 + 1) = true := by decide
/-- V-GCD-4. -/
theorem test_gcd_of_zeros : sat (exec (.gcd 1 6 6) demo) (fun t => t.readReg 1 == 0 && t.err == 0#4) = true := by decide
/-- V-INV-2. -/
theorem test_modinv_reduces : sat (exec (.modinv 3 1 5) (demoWith 65537 0)) (fun t => t.readReg 3 == 2753) = true := by decide
/-- V-INV-3. -/
theorem test_modinv_noinv : sat (exec (.modinv 3 1 5) demo) (fun t => t.err == 6#4 && t.readReg 3 == 2790) = true := by decide

/-! ## The step -/

/-- The first step after reset runs the command placed (P2: gcd of two registers; R100). -/
theorem test_step_runs_first_command : sat (step (State.reset.withFetchWord 32 0x00001240)) (fun t => t.done && !t.busy && t.cmdcnt == 1#32) = true := by decide
/-- V-ENC-21: decode succeeds, so NOMOD and not ILLEGAL. -/
theorem test_step_nomod : sat (step (State.reset.withFetchWord 32 0x00100020)) (fun t => t.err == 2#4) = true := by decide
/-- V-ENC-19 and V-BUS-18. -/
theorem test_step_illegal : sat (step (State.reset.withFetchWord 32 0x00000003)) (fun t => t.err == 1#4 && t.cmd == 0x00000003#32) = true := by decide
/-- V-BUS-1. -/
theorem test_read_id : sat (step (facing (hostR demo.plat 0x000) demoBusy)) (fun t => t.resp == .data 0x52534131#32) = true := by decide
/-- V-BUS-2. -/
theorem test_read_cfg : sat (step (facing (hostR demo.plat 0x004) demo)) (fun t => t.resp == .data 0x00080002#32) = true := by decide
/-- V-BUS-3. -/
theorem test_cfg_2048 : (State.resetOn ⟨2048, 0, .device⟩).cfgValue = 0x00080040#32 := by decide
/-- V-BUS-6. -/
theorem test_read_reserved_word : sat (step (facing (hostR demo.plat 0x1008) demo)) (fun t => t.resp == .data 0#32) = true := by decide
/-- V-BUS-8. -/
theorem test_misaligned_read_is_bus_error :
    (match step (facing (.host (.read (addrOf demo.plat 0x00E) .word)) demo) with
     | .fault f => f == .busError 0x00E#13
     | _ => false) = true := by decide
/-- V-BUS-10: the upper word of V1. -/
theorem test_write_upper_word : sat (step (facing (hostW demo.plat 0x1204 1#32) (demoWith 5 0))) (fun t => t.readReg 1 == 2 ^ 32 + 5) = true := by decide
/-- V-BUS-12. -/
theorem test_status_write_one_to_clear : sat (step (facing (hostW demo.plat 0x00C 0x00000037#32) { demo with done := true, err := 3#4 }))
    (fun t => t.statusValue == 0x00000034#32) = true := by decide
/-- V-BUS-14. -/
theorem test_busy_operand_write_refused : sat (step (facing (hostW demo.plat 0x1000 7#32) demoBusy))
    (fun t => t.ovr && t.readReg 0 == 3233 && t.busy) = true := by decide
/-- V-BUS-16. -/
theorem test_soft_reset_aborts : sat (step (facing (hostW demo.plat 0x008 2#32) { demoBusy with cmdcnt := 5#32, ie := true }))
    (fun t => t.statusValue == 0#32 && !t.ie && t.cmd == 0#32 && t.cmdcnt == 0#32 && t.readReg 3 == 2790) = true := by decide
/-- V-BUS-17. -/
theorem test_counter_wraps : sat (step { demoBusy with cmdcnt := 0xFFFFFFFF#32 }) (fun t => t.cmdcnt == 0#32 && t.readReg 3 == 2790) = true := by decide
/-- R42: a 64-bit read is two 32-bit reads in increasing address order. -/
theorem test_wide_read : wideRead (addrOf demo.plat 0x1000) 2 = [hostR demo.plat 0x1000, hostR demo.plat 0x1004] := by decide
/-- R131: a CMD write while busy is the hazard, a STATUS read is not. -/
theorem test_hazard : (facing (hostCmd demo.plat 0#32) demoBusy).hazard = true ∧ (facing (hostPoll demo.plat) demoBusy).hazard = false := by decide
/-- R21: V2 has not been written since reset, and the strict machine faults where it is read. -/
theorem test_strict_machine_faults :
    (match strictStep (State.reset.withFetchWord 32 0x00012341) with
     | .fault f => f == .unwrittenRead 2
     | _ => false) = true := by decide
/-- R89: NINV for N = 3233. -/
theorem test_montgomery_constant : montNinv 3233 = 0x669F289F := by decide
/-- R99: the estimate needs its correction on `(2^64 - 1)^2`. -/
theorem test_barrett_correction :
    (2 ^ 64 - 1) ^ 2 - barrettQuotient 64 3233 ((2 ^ 64 - 1) ^ 2) * 3233 = 3641 ∧ barrettDatapath 64 3233 ((2 ^ 64 - 1) ^ 2) = 408 := by decide

/-! ## Witnesses: each statement's hypotheses can be met -/

theorem witness_DecodeEncodeRoundTrip : (Instr.ldi 7 (2 ^ 20 - 1)).wellFormed = true := by decide
theorem witness_DecodedWordIsItsEncoding : decode 0xFFFFF702#32 = some (.ldi 7 1048575) := by decide
theorem witness_IllegalWordsComplete : demo.plat.legal = true ∧ demo.busy = false ∧ illegalWord 0x00000802#32 = true := by decide
theorem witness_StepRunsTheDecodedCommand_busy :
    demoBusy.plat.legal = true ∧ demoBusy.busy = true ∧ decode demoBusy.cmd = some (.modexpChk 3 1 2) ∧ demoBusy.agenda = [] := by decide
theorem witness_StepRunsTheDecodedCommand_idle : demo.plat.legal = true ∧ demo.busy = false := by decide
theorem witness_CommandRegister : (demo.plat.legal = true ∧ demo.busy = false) ∧ (demoBusy.plat.legal = true ∧ demoBusy.busy = true) := by decide
theorem witness_ErrorsArePrecise : ∃ t, exec (.setmod 5) demo = .next t ∧ t.err ≠ 0#4 := ⟨_, rfl, by decide⟩
theorem witness_CommandFrame : ∃ t, exec (.montmul 3 1 2) demo = .next t ∧ destOf (.montmul 3 1 2) ≠ some 4 ∧
    ∀ a, Instr.montmul 3 1 2 ≠ .setmod a := ⟨_, rfl, by decide, by decide⟩
theorem witness_ResultsDependOnOperandsAlone :
    let t := { demo with v := #v[1, 65, 17, 4, 5, 6, 7, 8], cmdcnt := 9#32, plat := ⟨64, 0x2000, .device⟩ }
    (∀ r ∈ sourcesOf (.modexp 3 1 2), demo.readReg r = t.readReg r) ∧ demo.n = t.n ∧ demo.mv = t.mv ∧ demo.plat.opw = t.plat.opw ∧
      (∃ s', exec (.modexp 3 1 2) demo = .next s' ∧ s'.err = 0#4) ∧ destOf (.modexp 3 1 2) = some 3 :=
  ⟨by decide, rfl, rfl, rfl, ⟨_, rfl, by decide⟩, rfl⟩
theorem witness_opRow : 0xFFFFF702#32 &&& 0x000000FF#32 = 0x02#32 ∧ 0x00000802#32 &&& 0x000000FF#32 = 0x02#32 := by decide
theorem witness_LdiLoadsTheImmediate : 1048575 < 2 ^ 20 := by decide
theorem witness_SetmodLoadsOrRejects : (goodModulus (demo.readReg 0) ∧ goodModulus ((demoWith 3 0).readReg 1)) ∧
    (¬ goodModulus ((demoWith 2 0).readReg 1) ∧ ¬ goodModulus ((demoWith 1 0).readReg 1)) := by unfold goodModulus; decide
theorem witness_units_without_modulus : ({ demo with mv := false } : State).mv = false := by decide
theorem witness_MontmulResult_range : demo.mv = true ∧ (demo.n ≤ demo.readReg 0 ∨ demo.n ≤ demo.readReg 1) := by decide
theorem witness_MontmulResult : demo.mv = true ∧ goodModulus demo.n ∧ (demoWith 3232 0).readReg 1 < demo.n ∧
    (demoWith 3232 0).readReg 2 < demo.n := by unfold goodModulus; decide
theorem witness_TomontResult : (demo.mv = true ∧ demo.n ≤ demo.readReg 0) ∧ (demo.mv = true ∧ (demoWith 3232 0).readReg 1 < demo.n) := by decide
theorem witness_FrommontResult : (demo.mv = true ∧ demo.n ≤ demo.readReg 7) ∧
    (demo.mv = true ∧ goodModulus demo.n ∧ demo.readReg 1 < demo.n) := by unfold goodModulus; decide
theorem witness_ModexpResult : (demo.mv = true ∧ demo.n ≤ demo.readReg 0) ∧ (demo.mv = true ∧ (demoWith 3232 0).readReg 1 < demo.n) ∧
    0x00043520#32 &&& 0x000000FF#32 = 0x20#32 := by decide
theorem witness_ModexpChkResult : (demo.mv = true ∧ (demo.readReg 6 = 0 ∨ demo.n ≤ demo.readReg 6)) ∧
    (demo.mv = true ∧ (demo.readReg 0 = 0 ∨ demo.n ≤ demo.readReg 0)) ∧
    (demo.mv = true ∧ 1 ≤ (demoWith 1 0).readReg 1 ∧ (demoWith 1 0).readReg 1 < demo.n) := by decide
theorem witness_ModmulResult_ModredResult : demo.mv = true := by decide
theorem witness_GcdResult : demo.readReg 6 = 0 ∧ demo.readReg 6 = 0 := by decide
theorem witness_ModinvResult : (demoWith 5 1).readReg 2 < 2 ∧
    (2 ≤ demo.readReg 5 ∧ Nat.gcd (demo.readReg 1) (demo.readReg 5) ≠ 1) ∧
    (2 ≤ (demoWith 1 2).readReg 2 ∧ Nat.gcd ((demoWith 1 2).readReg 1) ((demoWith 1 2).readReg 2) = 1) := by decide
theorem witness_MontgomeryLaws : demo.mv = true ∧ goodModulus demo.n ∧ demo.readReg 1 < demo.n ∧ demo.readReg 2 < demo.n ∧
    (3 : Reg) ≠ 2 ∧ (3 : Reg) ≠ 4 := by unfold goodModulus; decide
theorem witness_BarrettLaws :
    let s := { demo with v := #v[2 ^ 64 - 1, 2 ^ 64 - 1, 2 ^ 64 - 2, 1, 65, 17, 0, 3232] }
    s.mv = true ∧ s.readReg 2 = s.readReg 0 * s.readReg 1 / 2 ^ s.plat.opw ∧ s.readReg 3 = s.readReg 0 * s.readReg 1 % 2 ^ s.plat.opw ∧
      goodModulus s.n ∧ s.readReg 4 < s.n ∧ s.readReg 5 < s.n ∧ (6 : Reg) ≠ 5 ∧ (6 : Reg) ≠ 7 ∧
      s.readReg 6 = 0 ∧ s.readReg 7 < s.n := by unfold goodModulus; decide
theorem witness_InverseExistsWhenCoprime : 2 ≤ (demoWith 1 2).readReg 2 ∧
    (∃ t, exec (.modinv 3 1 2) (demoWith 1 2) = .next t ∧ t.err = 0#4) := ⟨by decide, ⟨_, rfl, by decide⟩⟩
theorem witness_RsaRoundTrip : Nat.Prime 61 ∧ Nat.Prime 53 ∧ 61 ≠ 53 ∧ demo.mv = true ∧ demo.n = 61 * 53 ∧
    demo.readReg 5 = (61 - 1) * (53 - 1) ∧ Nat.gcd (demo.readReg 2) (demo.readReg 5) = 1 ∧ 1 ≤ demo.readReg 1 ∧ demo.readReg 1 < demo.n ∧
    (4 : Reg) ≠ 1 ∧ (4 : Reg) ≠ 2 ∧ (3 : Reg) ≠ 4 := ⟨by norm_num, by norm_num, by decide⟩
theorem witness_MontgomeryDatapathRefines : goodModulus 3233 ∧ 3233 < 2 ^ (32 * 2) ∧ 3232 < 3233 ∧ 0 < 3233 := by unfold goodModulus; decide
theorem witness_ModexpDatapathRefines : goodModulus 3233 ∧ 3232 < 3233 ∧ 2 ^ 64 - 1 < 2 ^ 64 := by unfold goodModulus; decide
theorem witness_BarrettDatapathRefines : goodModulus 3 ∧ 2 ^ 128 - 1 < 2 ^ (2 * 64) := by unfold goodModulus; decide
theorem witness_GcdDatapathsRefine : 2 ≤ 2 ∧ Nat.gcd 1 2 = 1 ∧ Nat.gcd 0 2 ≠ 1 := by decide
theorem witness_legal_platforms : demo.plat.legal = true ∧ (⟨4096, 0x2000, .device⟩ : Platform).legal = true := by decide
theorem witness_ControlRegisterAndSoftReset : demoBusy.plat.legal = true ∧ (1#32).getLsbD 1 = false ∧ (3#32).getLsbD 1 = true := by decide
theorem witness_ControlRegisterAndSoftReset_cancellation : demoBusy.busy = true ∧
    (∀ v : Word, v.getLsbD 1 = true → HostOp.write (demoBusy.plat.base + 0x008) .word 1#32 ≠ .write (demoBusy.plat.base + 0x008) .word v) ∧
    ∃ t, step (facing (.host (.write (demoBusy.plat.base + 0x008) .word 1#32)) demoBusy) = .next t :=
  ⟨rfl, by rintro v hv h; cases h; exact absurd hv (by decide), ⟨_, rfl⟩⟩
theorem witness_ReservedOffsets : (0x018 ≤ 0x018 ∧ 0x018 % 4 = 0) ∧ (0xFFC ≤ 0xFFC ∧ 0xFFC % 4 = 0) ∧ demo.plat.nw ≤ 2 ∧ 127 ≤ 127 ∧
    demo.busy = false ∧ demoBusy.busy = true := by decide
theorem witness_OperandWindow : demo.plat.legal = true ∧ demo.busy = false ∧ 0 < demo.plat.nw ∧ 1 < demo.plat.nw := by decide
theorem witness_LittleEndianExample : demo.plat.legal = true ∧ demo.plat.opw = 64 ∧ demo.busy = false ∧ demo.readReg 0 < 2 ^ 64 := by decide
theorem witness_WriteOperandSequence : demo.Inv ∧ demo.busy = false ∧ 2 ^ 64 - 1 < 2 ^ demo.plat.opw := by decide
theorem witness_ReadsHaveNoSideEffects : ∃ t, step (facing (.host (.read 0x1000 .word)) demo) = .next t ∧ demo.busy = false := ⟨_, rfl, rfl⟩
theorem witness_BusyOperandReadIsFree : demoBusy.plat.legal = true ∧ demoBusy.busy = true ∧ 1 < demoBusy.plat.nw := by decide
theorem witness_RefusedAccesses : demoBusy.plat.legal = true ∧ demoBusy.busy = true ∧ (0x1FFC = 0x010 ∨ (0x1000 ≤ 0x1FFC ∧ 0x1FFC ≤ 0x1FFC ∧ 0x1FFC % 4 = 0)) := by decide
theorem witness_RefusedAccesses_sticky : ∃ t, step { demoBusy with ovr := true } = .next t ∧
    ({ demoBusy with ovr := true } : State).ovr = true ∧ resetsNext { demoBusy with ovr := true } = false ∧
    ¬ clearsOverrunNext { demoBusy with ovr := true } := ⟨_, rfl, rfl, rfl, by rintro ⟨d, rest, -, h⟩; cases h⟩
theorem witness_BusErrors : demo.plat.legal = true ∧ (0x1FFF < 0x2000 ∧ (Width.byte ≠ .word ∨ 0x1FFF % 4 ≠ 0)) ∧
    (0x00E < 0x2000 ∧ (Width.word ≠ .word ∨ 0x00E % 4 ≠ 0)) := by decide
theorem witness_FetchesAndOutsideAccesses :
    let p : Platform := ⟨64, 0x2000, .device⟩
    (State.resetOn p).plat.legal = true ∧ (p.base ≤ 0x2000 ∧ 0x3FFF < p.base + 0x2000) ∧ 0x1FFF < p.base ∧ p.base + 0x2000 ≤ 0x4000 := by decide
theorem witness_CacheablePlatformIsRefused : (State.resetOn ⟨64, 0, .cacheable⟩).plat.mapping ≠ .device := by decide
theorem witness_InterruptOutput : demo.plat.legal = true ∧ demoBusy.busy = true ∧ demo.busy = false ∧ (2#32).getLsbD 1 = true ∧
    ((1#32).getLsbD 1 = false ∧ (1#32).getLsbD 0 = true) ∧ ((0#32).getLsbD 1 = false ∧ (0#32).getLsbD 0 = false) := by decide
theorem witness_rules_over_every_step : ∃ t, step demoBusy = .next t ∧ t.readReg 3 = 2790 := ⟨_, rfl, by decide⟩
theorem witness_RegistersChangeOnlyAsStated_host : ∃ t, step (facing (hostW demo.plat 0x1204 1#32) demo) = .next t ∧
    t.readReg 1 ≠ demo.readReg 1 := ⟨_, rfl, by decide⟩
theorem witness_RegistersChangeOnlyAsStated_completion : ∃ t, step { demoBusy with cmd := 0x00001301#32 } = .next t ∧
    t.readReg 3 ≠ demoBusy.readReg 3 := ⟨_, rfl, by decide⟩
theorem witness_HostLeavesTheCommandAlone : ∃ t, demoBusy.busy = true ∧ step (facing (hostCmd demo.plat 0#32) demoBusy) = .next t ∧
    softResets demoBusy.plat (.write (addrOf demo.plat 0x010) .word 0#32) = false := ⟨_, rfl, rfl, by decide⟩
theorem witness_StepKeepsInvariant : demoBusy.Inv ∧ ∃ t, step demoBusy = .next t := ⟨by decide, ⟨_, rfl⟩⟩
theorem witness_AcceptedCommandCompletes :
    let s := { demoBusy with agenda := [hostPoll demo.plat, hostCmd demo.plat 0#32] }
    s.plat.legal = true ∧ s.busy = true ∧ ∀ t ∈ s.agenda, quietTurn s.plat t = true := by decide
theorem witness_RacesAreOrdered : demoBusy.Inv ∧ demoBusy.busy = true := by decide
theorem witness_StrictMachineFaults_excluded : (State.resetOn ⟨64, 0, .cacheable⟩).plat.legal = false := by decide
theorem witness_StrictMachineFaults_reads :
    (State.reset.plat.legal = true ∧ State.reset.busy = false ∧ 1 < State.reset.plat.nw ∧ State.reset.unwritten[7] ≠ []) ∧
    (demo.plat.legal = true ∧ demo.busy = false ∧ 1 < demo.plat.nw ∧ demo.unwritten[7] = []) ∧
    (∀ (r : Reg) (w : Nat), w < demo.plat.nw → ¬ (Width.word = .word ∧ 0xFFC = demo.plat.base + (0x1000 + 0x200 * r.val + 4 * w))) := by
  refine ⟨by decide, by decide, fun r w _ h => ?_⟩
  have h' : 0xFFC = 0 + (0x1000 + 0x200 * r.val + 4 * w) := h.2
  omega
theorem witness_StrictMachineFaults_engine :
    let s := State.reset.withFetchWord 32 0x00021340
    let nomod := State.reset.withFetchWord 32 0x00021310
    (s.busy = true ∧ decode s.cmd ≠ none ∧ usesModulus s.cmd = false ∧ ∃ r ∈ operandFields s.cmd, s.unwritten[r.val] ≠ []) ∧
    (usesModulus nomod.cmd = true ∧ nomod.mv = false) ∧ (decode 0x00000003#32 = none) ∧
    (usesModulus demoBusy.cmd = true ∧ demoBusy.mv = true ∧ ∀ r ∈ operandFields demoBusy.cmd, demoBusy.unwritten[r.val] = []) ∧
    (let both := { demoBusy with unwritten := demoBusy.unwritten.set 2 [1] }
     usesModulus both.cmd = true ∧ both.mv = true ∧ ∃ r ∈ operandFields both.cmd, both.unwritten[r.val] ≠ []) := by decide
theorem witness_UnwrittenValuesAreUnobservable :
    let s := { demoBusy with unwritten := demoBusy.unwritten.set 6 [0, 1] }
    let t := { s with v := s.v.set 6 77 }
    s.Inv ∧ t.Inv ∧ s.AgreeOnWritten t ∧ s ≠ t := by decide

end Sys2Proof.Tests
end

section
/-! PROOFS. The machine's invariant: each operation of the state keeps it, so each turn and each step does (R4, R19, R22, R29,
R83, R108). -/

namespace Sys2Proof.Machine

theorem State.Inv.legal {s : State} (h : s.Inv) : s.plat.legal = true := h.1

theorem State.Inv.readReg_lt {s : State} (h : s.Inv) (r : Reg) : s.readReg r < 2 ^ s.plat.opw := by
  obtain ⟨-, hreg, -⟩ := h
  exact hreg r

/-! Each operation of the state keeps the invariant. -/

theorem State.Inv.writeReg {s : State} (h : s.Inv) (r : Reg) {x : Nat} (hx : x < 2 ^ s.plat.opw) : (s.writeReg r x).Inv := by
  obtain ⟨hplat, hreg, hn, hmv, hbusy, herr, hunw⟩ := h
  refine ⟨hplat, fun i => ?_, hn, hmv, hbusy, herr, fun i => ?_⟩
  · rw [State.readReg_writeReg]
    split
    · exact hx
    · exact hreg i
  · rw [State.unwritten_writeReg]
    split
    · exact List.forall_mem_nil _
    · exact hunw i

theorem State.Inv.writeRegWord {s : State} (h : s.Inv) (r : Reg) {w : Nat} (hw : w < s.plat.nw) (d : Word) :
    (s.writeRegWord r w d).Inv := by
  obtain ⟨hplat, hreg, hn, hmv, hbusy, herr, hunw⟩ := h
  have hword : 32 * w + 32 ≤ s.plat.opw := by
    obtain ⟨hopw, -⟩ := Platform.opw_eq hplat
    omega
  refine ⟨hplat, fun i => ?_, hn, hmv, hbusy, herr, fun i => ?_⟩
  · rw [State.readReg_writeRegWord]
    split
    · exact setOperandWord_lt d (hreg r) hword
    · exact hreg i
  · rw [State.unwritten_writeRegWord]
    split
    · exact fun k hk => hunw r k (List.mem_of_mem_filter hk)
    · exact hunw i

theorem State.Inv.loadModulus {s : State} (h : s.Inv) {m : Nat} (hlt : m < 2 ^ s.plat.opw) (hm : badModulus m = false) :
    (s.loadModulus m).Inv := by
  obtain ⟨hplat, hreg, -, -, hbusy, herr, hunw⟩ := h
  have hgood : m % 2 = 1 ∧ 3 ≤ m := by simpa [badModulus] using hm
  exact ⟨hplat, hreg, hlt, fun _ => hgood, hbusy, herr, hunw⟩

theorem State.Inv.finish {s : State} (h : s.Inv) {code : BitVec 4} (hc : code.toNat ≤ 6) : (s.finish code).Inv := by
  obtain ⟨hplat, hreg, hn, hmv, -, -, hunw⟩ := h
  exact ⟨hplat, hreg, hn, hmv, nofun, hc, hunw⟩

theorem State.Inv.accept {s : State} (h : s.Inv) (w : Word) : (s.accept w).Inv := by
  obtain ⟨hplat, hreg, hn, hmv, -, -, hunw⟩ := h
  exact ⟨hplat, hreg, hn, hmv, fun _ => ⟨rfl, rfl⟩, Nat.zero_le 6, hunw⟩

theorem State.Inv.statusWrite {s : State} (h : s.Inv) (d : Word) : (s.statusWrite d).Inv := by
  obtain ⟨hplat, hreg, hn, hmv, hbusy, herr, hunw⟩ := h
  refine ⟨hplat, hreg, hn, hmv, fun hb => ?_, herr, hunw⟩
  obtain ⟨hdone, hcode⟩ := hbusy hb
  exact ⟨by simp [hdone], hcode⟩

theorem State.Inv.softReset {s : State} (h : s.Inv) : s.softReset.Inv := by
  obtain ⟨hplat, hreg, -, -, -, -, hunw⟩ := h
  exact ⟨hplat, hreg, Nat.mod_lt _ (by positivity), nofun, nofun, Nat.zero_le 6, hunw⟩

theorem State.Inv.hardReset {s : State} (h : s.Inv) : s.hardReset.Inv := by
  refine ⟨h.legal, fun r => ?_, Nat.mod_lt _ (by positivity), nofun, nofun, Nat.zero_le 6, fun r => ?_⟩
  · rw [State.hardReset_readReg]
    exact Nat.mod_lt _ (by positivity)
  · simp

theorem State.Inv.setIe {s : State} (h : s.Inv) (d : Word) : (s.setIe d).Inv := h

theorem State.Inv.refuseAccess {s : State} (h : s.Inv) : s.refuseAccess.Inv := h

theorem State.Inv.respond {s : State} (h : s.Inv) (a : Response) : (s.respond a).Inv := h

theorem State.Inv.draw {s : State} (h : s.Inv) : s.draw.Inv := h

/-! The bounds of the numbers the commands write. -/

/-- A number reduced by the loaded modulus is an operand (R19, R83). -/
theorem State.Inv.mod_modulus_lt {s : State} (h : s.Inv) (hmv : s.mv = true) (x : Nat) : x % s.n < 2 ^ s.plat.opw := by
  obtain ⟨-, -, hn, hodd, -⟩ := h
  obtain ⟨-, h3⟩ := hodd hmv
  exact (Nat.mod_lt x (by omega)).trans hn

theorem State.Inv.powMod_lt {s : State} (h : s.Inv) (hmv : s.mv = true) (a e : Nat) : powMod a e s.n < 2 ^ s.plat.opw := by
  rw [powMod_eq]
  exact h.mod_modulus_lt hmv _

theorem gcd_lt_of_lt {a b bound : Nat} (ha : a < bound) (hb : b < bound) : Nat.gcd a b < bound := by
  rcases Nat.eq_zero_or_pos a with rfl | hpos
  · rwa [Nat.gcd_zero_left]
  · exact (Nat.gcd_le_left b hpos).trans_lt ha

/-- LDI's 20 bits fit in every legal operand width (R4, R68). -/
theorem zextImm_lt_operand {p : Platform} (hp : p.legal = true) (imm : Nat) : zextImm imm < 2 ^ p.opw := by
  obtain ⟨-, h64, -⟩ := (Platform.legal_iff p).mp hp
  exact (zextImm_lt imm).trans_le (Nat.pow_le_pow_right (by decide) (by omega))

/-! A completion keeps the invariant (R105). -/

/-- Execute raised an error, or left a state of the invariant. -/
def LeavesInv (r : Except CmdError State) : Prop := ∀ t, r = .ok t → t.Inv

theorem LeavesInv.error {e : CmdError} : LeavesInv (.error e) := nofun

theorem LeavesInv.ok {t : State} (h : t.Inv) : LeavesInv (.ok t) := by
  rintro _ ⟨⟩
  exact h

theorem LeavesInv.ite {c : Prop} [Decidable c] {a b : Except CmdError State} (ha : LeavesInv a) (hb : LeavesInv b) :
    LeavesInv (if c then a else b) := by
  split
  · exact ha
  · exact hb

/-- Execute of a command that needs the modulus: only the case of a loaded modulus can write (R108). -/
theorem LeavesInv.withModulus {s : State} {k : Nat → Except CmdError State} (h : s.mv = true → LeavesInv (k s.n)) :
    LeavesInv (s.withModulus k) := by
  cases hmv : s.mv with
  | true => rw [State.withModulus_loaded hmv]; exact h hmv
  | false => rw [State.withModulus_none hmv]; exact .error

theorem State.Inv.complete {s : State} (h : s.Inv) {r : Except CmdError State} (hr : LeavesInv r) : (s.complete r).Inv := by
  cases r with
  | error e => exact h.finish e.code_range.2
  | ok t => exact (hr t rfl).finish (Nat.zero_le 6)

/-- MODINV writes an inverse below its own modulus, an operand (R101). -/
theorem State.Inv.leavesInv_inverse {s : State} (h : s.Inv) (rd rs1 rs2 : Reg) :
    LeavesInv ((inverseResult (s.readReg rs1) (s.readReg rs2)).map (s.writeReg rd)) := by
  rcases inverseResult_cases (s.readReg rs1) (s.readReg rs2) with ⟨-, he⟩ | ⟨-, -, he⟩ | ⟨-, -, x, -, hx, -, he⟩
  · rw [he]; exact .error
  · rw [he]; exact .error
  · rw [he]; exact .ok (h.writeReg rd (hx.trans (h.readReg_lt rs2)))

/-- Every command's Execute leaves a state of the invariant, because the number it writes is an operand. -/
theorem State.Inv.exec_leavesInv {s : State} (h : s.Inv) (i : Instr) :
    ∃ r, exec i s = .next (s.complete r) ∧ LeavesInv r := by
  cases i with
  | nop => exact ⟨_, rfl, .ok h⟩
  | mov rd rs1 => exact ⟨_, rfl, .ok (h.writeReg rd (h.readReg_lt rs1))⟩
  | ldi rd imm => exact ⟨_, rfl, .ok (h.writeReg rd (zextImm_lt_operand h.legal imm))⟩
  | setmod rs1 =>
    refine ⟨_, rfl, ?_⟩
    split
    · exact .error
    · next hm => exact .ok (h.loadModulus (h.readReg_lt rs1) (by simpa using hm))
  | montmul rd rs1 rs2 =>
    exact ⟨_, rfl, .withModulus fun hmv => .ite .error (.ok (h.writeReg rd (h.mod_modulus_lt hmv _)))⟩
  | tomont rd rs1 =>
    exact ⟨_, rfl, .withModulus fun hmv => .ite .error (.ok (h.writeReg rd (h.mod_modulus_lt hmv _)))⟩
  | frommont rd rs1 =>
    exact ⟨_, rfl, .withModulus fun hmv => .ite .error (.ok (h.writeReg rd (h.mod_modulus_lt hmv _)))⟩
  | modexp rd rs1 rs2 =>
    exact ⟨_, rfl, .withModulus fun hmv => .ite .error (.ok (h.writeReg rd (h.powMod_lt hmv _ _)))⟩
  | modexpChk rd rs1 rs2 =>
    exact ⟨_, rfl, .withModulus fun hmv => .ite .error (.ok (h.writeReg rd (h.powMod_lt hmv _ _)))⟩
  | modmul rd rs1 rs2 => exact ⟨_, rfl, .withModulus fun hmv => .ok (h.writeReg rd (h.mod_modulus_lt hmv _))⟩
  | modred rd rs1 rs2 => exact ⟨_, rfl, .withModulus fun hmv => .ok (h.writeReg rd (h.mod_modulus_lt hmv _))⟩
  | gcd rd rs1 rs2 => exact ⟨_, rfl, .ok (h.writeReg rd (gcd_lt_of_lt (h.readReg_lt rs1) (h.readReg_lt rs2)))⟩
  | modinv rd rs1 rs2 => exact ⟨_, rfl, h.leavesInv_inverse rd rs1 rs2⟩

theorem exec_preserves_inv {i : Instr} {s t : State} (h : s.Inv) (he : exec i s = .next t) : t.Inv := by
  obtain ⟨r, hexec, hr⟩ := h.exec_leavesInv i
  rw [hexec] at he
  cases he
  exact h.complete hr

/-! Each turn, and so each step, keeps the invariant (R18). -/

theorem engineTurn_preserves_inv {s t : State} (h : s.Inv) (he : engineTurn s = .next t) : t.Inv := by
  unfold engineTurn completeCommand at he
  split at he
  · split at he
    · exact exec_preserves_inv h he
    · cases he; exact h.complete .error
  · cases he; exact h

theorem WriteEffect.preserves_inv {s t : State} (h : s.Inv) (he : WriteEffect s t) : t.Inv := by
  cases he with
  | softReset => exact h.softReset
  | setIe d => exact h.setIe d
  | statusWrite d => exact h.statusWrite d
  | refused => exact h.refuseAccess
  | accepted _ w => exact h.accept w
  | operand _ r w hw d => exact h.writeRegWord r hw d
  | ignored => exact h

theorem AccessEffect.preserves_inv {s t : State} (h : s.Inv) (he : AccessEffect s t) : t.Inv := by
  cases he with
  | answered a => exact h.respond a
  | drawn a => exact (h.respond a).draw
  | written hw => exact (hw.preserves_inv h).respond .ack

theorem takeTurn_preserves_inv {turn : Turn} {s t : State} (h : s.Inv) (ht : takeTurn turn s = .next t) : t.Inv := by
  cases turn with
  | host op => exact (hostAccess_effect ht).preserves_inv h
  | engine => exact engineTurn_preserves_inv h ht
  | rst => cases ht; exact h.hardReset

theorem step_preserves_inv {s t : State} (h : s.Inv) (hs : step s = .next t) : t.Inv := by
  rw [step_of_legal h.legal] at hs
  cases ha : s.agenda with
  | nil => exact engineTurn_preserves_inv h (nextTurn_nil ha ▸ hs)
  | cons turn rest => exact takeTurn_preserves_inv (s := { s with agenda := rest }) h (nextTurn_cons ha ▸ hs)

/-- Settles O54: whichever turn the step takes, the operation behind it keeps the invariant. -/
theorem stepKeepsInvariant : Obligations.StepKeepsInvariant := fun _ _ h hs => step_preserves_inv h hs

end Sys2Proof.Machine
end

section
/-! PROOFS. Runs of the machine, and the host program `WV` (R17): a sequence of word writes to one operand register while idle. -/

namespace Sys2Proof.Machine

/-! A run, step by step. -/

theorem run_zero (s : State) : Host.Core.run core 0 s = .next s := rfl

theorem run_succ_of_step {s t : State} (h : step s = .next t) (k : Nat) :
    Host.Core.run core (k + 1) s = Host.Core.run core k t := by
  have hcore : core.step s = .next t := h
  simp only [Host.Core.run, hcore]

/-! One word write of the host, while idle (R40, R49). -/

/-- An idle host's write of word `w` of `value` to the same word of `Vr`. -/
def State.hostWriteWord (s : State) (r : Reg) (value w : Nat) : State :=
  (s.writeRegWord r w (operandWord value w)).respond .ack

theorem State.hostWriteWord_readReg (s : State) (r i : Reg) (value w : Nat) :
    (s.hostWriteWord r value w).readReg i =
      if i = r then setOperandWord (s.readReg r) w (operandWord value w) else s.readReg i :=
  State.readReg_writeRegWord s r i w (operandWord value w)

theorem State.hostWriteWord_unwritten (s : State) (r i : Reg) (value w : Nat) :
    (s.hostWriteWord r value w).unwritten[i.val] =
      if i = r then s.unwritten[r.val].filter (· ≠ w) else s.unwritten[i.val] :=
  State.unwritten_writeRegWord s r i w (operandWord value w)

/-- The turn of the word write that `WV` makes, on an idle block. -/
theorem step_hostWriteWord {s : State} (hl : s.plat.legal = true) (hb : s.busy = false) (r : Reg) (value : Nat) {w : Nat}
    (hw : w < s.plat.nw) :
    step { s with agenda := hostW s.plat (operandOffset r w) (operandWord value w) :: s.agenda } =
      .next (s.hostWriteWord r value w) := by
  obtain ⟨-, -, h128⟩ := Platform.opw_eq hl
  have hw128 : w < 128 := by omega
  obtain ⟨-, -, -, hlt, h4⟩ := operandOffset_fields r hw128
  rw [step_cons hl, takeTurn_hostW s _ hlt h4, State.hostWrite, busWrite_operand s r _ hw128]
  simp only [hb, hw, Bool.false_eq_true, if_false, if_true, State.hostWriteWord]

/-! The word writes of a list of words, in order. -/

/-- The block after an idle host has written the words `ws` of `value` to `Vr`. -/
def State.hostWriteWords (s : State) (r : Reg) (value : Nat) : List Nat → State
  | [] => s
  | w :: ws => (s.hostWriteWord r value w).hostWriteWords r value ws

theorem State.hostWriteWords_agenda (s : State) (r : Reg) (value : Nat) (ws : List Nat) :
    (s.hostWriteWords r value ws).agenda = s.agenda := by
  induction ws generalizing s with
  | nil => rfl
  | cons w ws ih => exact ih (s.hostWriteWord r value w)

theorem State.hostWriteWords_plat (s : State) (r : Reg) (value : Nat) (ws : List Nat) :
    (s.hostWriteWords r value ws).plat = s.plat := by
  induction ws generalizing s with
  | nil => rfl
  | cons w ws ih => exact ih (s.hostWriteWord r value w)

/-- The registers other than `Vr` keep their values and what is known of their words. -/
theorem State.hostWriteWords_frame (s : State) {r i : Reg} (hi : i ≠ r) (value : Nat) (ws : List Nat) :
    (s.hostWriteWords r value ws).readReg i = s.readReg i ∧
      (s.hostWriteWords r value ws).unwritten[i.val] = s.unwritten[i.val] := by
  induction ws generalizing s with
  | nil => exact ⟨rfl, rfl⟩
  | cons w ws ih =>
    obtain ⟨hv, hu⟩ := ih (s.hostWriteWord r value w)
    rw [State.hostWriteWord_readReg, if_neg hi] at hv
    rw [State.hostWriteWord_unwritten, if_neg hi] at hu
    exact ⟨hv, hu⟩

/-- The words written are those of `value`, and every other word of `Vr` is as before (R40). -/
theorem State.operandWord_hostWriteWords (s : State) (r : Reg) (value k : Nat) (ws : List Nat) :
    operandWord ((s.hostWriteWords r value ws).readReg r) k =
      if k ∈ ws then operandWord value k else operandWord (s.readReg r) k := by
  induction ws generalizing s with
  | nil => simp [State.hostWriteWords]
  | cons w ws ih =>
    rw [State.hostWriteWords, ih, State.hostWriteWord_readReg, if_pos rfl, operandWord_setOperandWord]
    by_cases hk : k = w
    · subst hk; simp
    · simp [hk]

/-- What stays unwritten of `Vr` are the words that were, without those written (R21). -/
theorem State.mem_unwritten_hostWriteWords (s : State) (r : Reg) (value k : Nat) (ws : List Nat) :
    k ∈ (s.hostWriteWords r value ws).unwritten[r.val] ↔ k ∈ s.unwritten[r.val] ∧ k ∉ ws := by
  induction ws generalizing s with
  | nil => simp [State.hostWriteWords]
  | cons w ws ih =>
    rw [State.hostWriteWords, ih, State.hostWriteWord_unwritten, if_pos rfl]
    simp [and_assoc]

theorem State.Inv.hostWriteWords {s : State} (h : s.Inv) (r : Reg) (value : Nat) {ws : List Nat}
    (hws : ∀ w ∈ ws, w < s.plat.nw) : (s.hostWriteWords r value ws).Inv := by
  induction ws generalizing s with
  | nil => exact h
  | cons w ws ih =>
    obtain ⟨hw, hrest⟩ := List.forall_mem_cons.mp hws
    exact ih ((h.writeRegWord r hw (operandWord value w)).respond .ack) hrest

/-- The host's turns that write the words `ws` of `value` to `Vr`; `WV` is those of all words. -/
def hostWriteTurns (p : Platform) (r : Reg) (value : Nat) (ws : List Nat) : List Turn :=
  ws.map fun w => hostW p (operandOffset r w) (operandWord value w)

theorem hostWV_eq (p : Platform) (r : Reg) (value : Nat) :
    hostWV p r value = hostWriteTurns p r value (List.range p.nw) := rfl

theorem run_hostWriteWords {s : State} (hl : s.plat.legal = true) (hb : s.busy = false) (r : Reg) (value : Nat) {ws : List Nat}
    (hws : ∀ w ∈ ws, w < s.plat.nw) :
    Host.Core.run core ws.length
        { s with agenda := hostWriteTurns s.plat r value ws ++ s.agenda } =
      .next (s.hostWriteWords r value ws) := by
  induction ws generalizing s with
  | nil => exact run_zero s
  | cons w ws ih =>
    obtain ⟨hw, hrest⟩ := List.forall_mem_cons.mp hws
    have hstep := step_hostWriteWord (s := { s with agenda := hostWriteTurns s.plat r value ws ++ s.agenda }) hl hb r value hw
    refine (run_succ_of_step hstep ws.length).trans ?_
    exact ih (s := s.hostWriteWord r value w) hl hb hrest

/-- `WV` ends with the register's value, because all its words are those of `value` (R45). -/
theorem State.Inv.readReg_hostWriteWords_range {s : State} (h : s.Inv) (r : Reg) {value : Nat}
    (hv : value < 2 ^ s.plat.opw) : (s.hostWriteWords r value (List.range s.plat.nw)).readReg r = value := by
  obtain ⟨hopw, -⟩ := Platform.opw_eq h.legal
  have hlt := (h.hostWriteWords r value fun _ => List.mem_range.mp).readReg_lt r
  rw [State.hostWriteWords_plat] at hlt
  rw [hopw] at hlt hv
  refine eq_of_operandWord_eq hlt hv fun w hw => ?_
  rw [State.operandWord_hostWriteWords, if_pos (List.mem_range.mpr hw)]

/-- `WV` leaves no word of the register unwritten (R21). -/
theorem State.Inv.regWritten_hostWriteWords_range {s : State} (h : s.Inv) (r : Reg) (value : Nat) :
    (s.hostWriteWords r value (List.range s.plat.nw)).regWritten r = true := by
  obtain ⟨-, -, -, -, -, -, hunw⟩ := h
  refine (regWritten_iff _ r).mpr (List.eq_nil_iff_forall_not_mem.mpr fun k hk => ?_)
  obtain ⟨hold, hnot⟩ := (State.mem_unwritten_hostWriteWords s r value k _).mp hk
  exact hnot (List.mem_range.mpr (hunw r k hold))

/-- Settles O40: the run of `WV` is the write of the words `0` to `NW - 1`, and an operand is its words. -/
theorem writeOperandSequence : Obligations.WriteOperandSequence := by
  intro s r value hinv hb hv
  have hrun := run_hostWriteWords hinv.legal hb r value (ws := List.range s.plat.nw) fun _ => List.mem_range.mp
  rw [List.length_range, ← hostWV_eq] at hrun
  refine ⟨s.hostWriteWords r value (List.range s.plat.nw), hrun, hinv.readReg_hostWriteWords_range r hv,
    hinv.regWritten_hostWriteWords_range r value, fun i hi => ?_, s.hostWriteWords_agenda r value _⟩
  obtain ⟨hread, hunw⟩ := s.hostWriteWords_frame hi value (List.range s.plat.nw)
  exact ⟨hread, by rw [State.regWritten, hunw, State.regWritten]⟩

end Sys2Proof.Machine
end

section
/-! PROOFS. The reset state (R37, R125). -/

namespace Sys2Proof.Machine

/-- Settles O48: each value is the one `State.resetOn` writes, on R9's platform; `irq` follows from IE and DONE (R33). -/
theorem resetValues : Obligations.ResetValues := ⟨rfl, rfl, rfl, rfl, rfl, rfl, rfl, rfl, rfl, rfl⟩

end Sys2Proof.Machine
end

section
/-! PROOFS. What a host's 32-bit read or write of each control register does, in the terms of the statements (R25 to R31, R48,
R49), and the inversion of one step: which turn was taken, and what it changed (R18, R105, R125, R126). -/

namespace Sys2Proof.Machine

open Sys2Proof.Expect

/-! A turn that faces the machine is the turn taken. -/

theorem step_facing {s : State} (hl : s.plat.legal = true) (t : Turn) : step (facing t s) = takeTurn t s :=
  step_cons hl t

theorem step_hostR {s : State} (hl : s.plat.legal = true) {off : Nat} (hlt : off < 0x2000) (h4 : off % 4 = 0) :
    step (facing (hostR s.plat off) s) = .next (s.hostRead (BitVec.ofNat 13 off)) :=
  (step_facing hl _).trans (takeTurn_hostR s hlt h4)

theorem step_hostW {s : State} (hl : s.plat.legal = true) (d : Word) {off : Nat} (hlt : off < 0x2000) (h4 : off % 4 = 0) :
    step (facing (hostW s.plat off d) s) = .next (s.hostWrite (BitVec.ofNat 13 off) d) :=
  (step_facing hl _).trans (takeTurn_hostW s d hlt h4)

theorem step_facing_engine_busy {s : State} (hl : s.plat.legal = true) (hb : s.busy = true) :
    step (facing .engine s) = completeCommand s := by
  simp [step_facing hl, takeTurn, engineTurn, hb]

theorem step_facing_rst {s : State} (hl : s.plat.legal = true) : step (facing .rst s) = .next s.hardReset :=
  step_facing hl .rst

/-! The control registers, by their offsets. -/

/-- A read of a control register draws no free value (R39, R51). -/
theorem State.hostRead_control (s : State) {off : Nat} (h : off < 0x1000) :
    s.hostRead (BitVec.ofNat 13 off) = s.respond (.data (s.busRead (BitVec.ofNat 13 off))) := by
  simp [State.hostRead, State.readIsFree, State.isOperandWord, inOperandWindow_of_control h]

@[simp] theorem State.busRead_id (s : State) : s.busRead 0x000#13 = 0x52534131#32 := rfl
@[simp] theorem State.busRead_cfg (s : State) : s.busRead 0x004#13 = s.cfgValue := rfl
@[simp] theorem State.busRead_ctrl (s : State) : s.busRead 0x008#13 = s.ctrlValue := rfl
@[simp] theorem State.busRead_status (s : State) : s.busRead 0x00C#13 = s.statusValue := rfl
@[simp] theorem State.busRead_cmd (s : State) : s.busRead 0x010#13 = s.cmd := rfl
@[simp] theorem State.busRead_cmdcnt (s : State) : s.busRead 0x014#13 = s.cmdcnt := rfl

@[simp] theorem State.busWrite_id (s : State) (d : Word) : s.busWrite 0x000#13 d = s := rfl
@[simp] theorem State.busWrite_cfg (s : State) (d : Word) : s.busWrite 0x004#13 d = s := rfl
@[simp] theorem State.busWrite_ctrl (s : State) (d : Word) : s.busWrite 0x008#13 d = s.ctrlWrite d := rfl
@[simp] theorem State.busWrite_status (s : State) (d : Word) : s.busWrite 0x00C#13 d = s.statusWrite d := rfl
@[simp] theorem State.busWrite_cmd (s : State) (d : Word) : s.busWrite 0x010#13 d = s.cmdWrite d := rfl
@[simp] theorem State.busWrite_cmdcnt (s : State) (d : Word) : s.busWrite 0x014#13 d = s := rfl

theorem State.ctrlWrite_softReset (s : State) {d : Word} (h : d.getLsbD 1 = true) : s.ctrlWrite d = s.softReset :=
  if_pos h

theorem State.ctrlWrite_setIe (s : State) {d : Word} (h : d.getLsbD 1 = false) : s.ctrlWrite d = s.setIe d :=
  if_neg (Bool.eq_false_iff.mp h)

theorem State.cmdWrite_idle {s : State} (h : s.busy = false) (w : Word) : s.cmdWrite w = s.accept w := by
  simp [State.cmdWrite, h]

theorem State.cmdWrite_busy {s : State} (h : s.busy = true) (w : Word) : s.cmdWrite w = s.refuseAccess := by
  simp [State.cmdWrite, h]

/-- The read of a control register answers its value and changes nothing in the block (R48, R53). -/
theorem step_hostR_control {s : State} (hl : s.plat.legal = true) {off : Nat} (hlt : off < 0x1000) (h4 : off % 4 = 0) {x : Word}
    (hx : s.busRead (BitVec.ofNat 13 off) = x) :
    step (facing (hostR s.plat off) s) = .next (s.respond (.data x)) := by
  rw [step_hostR hl (by omega) h4, s.hostRead_control hlt, hx]

/-- A write to a register that ignores it is acknowledged (R25, R26, R31). -/
theorem step_hostW_ignored {s : State} (hl : s.plat.legal = true) (d : Word) {off : Nat} (hlt : off < 0x2000) (h4 : off % 4 = 0)
    (hignored : s.busWrite (BitVec.ofNat 13 off) d = s) :
    step (facing (hostW s.plat off d) s) = .next (s.respond .ack) := by
  rw [step_hostW hl d hlt h4, State.hostWrite, hignored]

theorem step_hostCmd_idle {s : State} (hl : s.plat.legal = true) (hb : s.busy = false) (w : Word) :
    step (facing (hostCmd s.plat w) s) = .next ((s.accept w).respond .ack) := by
  rw [hostCmd, step_hostW hl w (by decide) (by decide), State.hostWrite, State.busWrite_cmd, State.cmdWrite_idle hb]

theorem step_hostCmd_busy {s : State} (hl : s.plat.legal = true) (hb : s.busy = true) (w : Word) :
    step (facing (hostCmd s.plat w) s) = .next (s.refuseAccess.respond .ack) := by
  rw [hostCmd, step_hostW hl w (by decide) (by decide), State.hostWrite, State.busWrite_cmd, State.cmdWrite_busy hb]

theorem step_hostW_softReset {s : State} (hl : s.plat.legal = true) {d : Word} (hd : d.getLsbD 1 = true) :
    step (facing (hostW s.plat 0x008 d) s) = .next (s.softReset.respond .ack) := by
  rw [step_hostW hl d (by decide) (by decide), State.hostWrite, State.busWrite_ctrl, s.ctrlWrite_softReset hd]

theorem step_hostW_setIe {s : State} (hl : s.plat.legal = true) {d : Word} (hd : d.getLsbD 1 = false) :
    step (facing (hostW s.plat 0x008 d) s) = .next ((s.setIe d).respond .ack) := by
  rw [step_hostW hl d (by decide) (by decide), State.hostWrite, State.busWrite_ctrl, s.ctrlWrite_setIe hd]

theorem step_hostW_status {s : State} (hl : s.plat.legal = true) (d : Word) :
    step (facing (hostW s.plat 0x00C d) s) = .next ((s.statusWrite d).respond .ack) := by
  rw [step_hostW hl d (by decide) (by decide), State.hostWrite, State.busWrite_status]

/-! The operand window, by its offsets. -/

/-- An aligned offset of the operand window is word `off[8:2]` of register `off[11:9]` (R40). -/
theorem eq_operandOffset {off : Offset} (hin : inOperandWindow off = true) (h4 : off.toNat % 4 = 0) :
    off.toNat = operandOffset (offsetReg off) (offsetWord off) := by
  have hlt := off.isLt
  simp only [inOperandWindow, BitVec.getLsbD, Nat.testBit_eq_decide_div_mod_eq, decide_eq_true_eq] at hin
  simp only [operandOffset, offsetReg, offsetWord, BitVec.val_toFin, BitVec.extractLsb'_toNat, Nat.shiftRight_eq_div_pow]
  omega

theorem State.operandWrite_idle {s : State} (h : s.busy = false) (off : Offset) (d : Word) :
    s.operandWrite off d =
      if offsetWord off < s.plat.nw then s.writeRegWord (offsetReg off) (offsetWord off) d else s := by
  simp [State.operandWrite, h]

theorem State.operandWrite_busy {s : State} (h : s.busy = true) (off : Offset) (d : Word) :
    s.operandWrite off d = s.refuseAccess := by
  simp [State.operandWrite, h]

/-- The write of word `w < NW` of `Vr` by an idle host (R40, R49). -/
theorem step_hostW_operand {s : State} (hl : s.plat.legal = true) (hb : s.busy = false) (r : Reg) {w : Nat}
    (hw : w < s.plat.nw) (d : Word) :
    step (facing (hostW s.plat (operandOffset r w) d) s) = .next ((s.writeRegWord r w d).respond .ack) := by
  obtain ⟨-, -, h128⟩ := Platform.opw_eq hl
  have hw128 : w < 128 := by omega
  obtain ⟨-, -, -, hlt, h4⟩ := operandOffset_fields r hw128
  rw [step_hostW hl d hlt h4, State.hostWrite, busWrite_operand s r d hw128]
  simp [hb, hw]

/-! One access of the host, told apart by what it does: `WriteEffect` with the access that had the effect. -/

theorem softResets_write {p : Platform} {addr : Nat} {width : Width} {d : Word} {off : Offset}
    (h : select p addr width = .hit off) :
    softResets p (.write addr width d) = (decide (off = 0x008#13) && d.getLsbD 1) := by
  by_cases hoff : off = 0x008#13 <;> simp [softResets, h, hoff]

/-- The access that performs a soft reset is a 32-bit write of `CTRL` with bit 1 set (R27). -/
theorem eq_write_of_softResets {p : Platform} {op : HostOp} (h : softResets p op = true) :
    ∃ d, d.getLsbD 1 = true ∧ op = .write (addrOf p 0x008) .word d := by
  cases op with
  | read addr width => cases h
  | fetch addr => cases h
  | write addr width d =>
    simp only [softResets, Bool.and_eq_true, beq_iff_eq] at h
    obtain ⟨hsel, hd⟩ := h
    obtain ⟨rfl, -, rfl⟩ := select_hit hsel
    exact ⟨d, hd, rfl⟩

/-- What an access other than a soft reset or a write of an operand word leaves alone: the operand registers and what is known of
them, `N`, MV, `CMDCNT`, and the command in flight (R50, R130). -/
structure LeavesData (s t : State) : Prop where
  v : t.v = s.v
  unwritten : t.unwritten = s.unwritten
  n : t.n = s.n
  mv : t.mv = s.mv
  cmdcnt : t.cmdcnt = s.cmdcnt
  inFlight : s.busy = true → t.busy = true ∧ t.cmd = s.cmd

/-- What an access that is no bus error does, and which access it was where that matters. -/
inductive HostEffect (s : State) (op : HostOp) : State → Prop where
  /-- a soft reset -/
  | softReset (hop : softResets s.plat op = true) : HostEffect s op (s.softReset.respond .ack)
  /-- an idle host's write of an operand word -/
  | operand (hb : s.busy = false) (r : Reg) (w : Nat) (d : Word) (hw : w < s.plat.nw)
      (hop : op = .write (addrOf s.plat (operandOffset r w)) .word d) (hs : softResets s.plat op = false) :
      HostEffect s op ((s.writeRegWord r w d).respond .ack)
  /-- any other access -/
  | other (hop : softResets s.plat op = false) {t : State} (h : LeavesData s t) : HostEffect s op t

theorem LeavesData.respond (s : State) (a : Response) : LeavesData s (s.respond a) :=
  ⟨rfl, rfl, rfl, rfl, rfl, fun hb => ⟨hb, rfl⟩⟩

theorem State.hostRead_leavesData (s : State) (off : Offset) : LeavesData s (s.hostRead off) := by
  unfold State.hostRead
  split
  · exact ⟨rfl, rfl, rfl, rfl, rfl, fun hb => ⟨hb, rfl⟩⟩
  · exact .respond s _

/-- A 32-bit write of the host, by the offset it hits (R49). -/
theorem hostWrite_effect (s : State) {addr : Nat} {width : Width} {off : Offset} (d : Word)
    (h : select s.plat addr width = .hit off) : HostEffect s (.write addr width d) (s.hostWrite off d) := by
  have hs := softResets_write (d := d) h
  obtain ⟨rfl, h4, rfl⟩ := select_hit h
  unfold State.hostWrite State.busWrite
  split
  · next hctrl =>
    cases hd : d.getLsbD 1 with
    | true => rw [s.ctrlWrite_softReset hd]; exact .softReset (by rw [hs, hd, decide_eq_true hctrl, Bool.and_true])
    | false =>
      rw [s.ctrlWrite_setIe hd]
      exact .other (by rw [hs, hd, Bool.and_false]) ⟨rfl, rfl, rfl, rfl, rfl, fun hb => ⟨hb, rfl⟩⟩
  · next hctrl =>
    replace hs : softResets s.plat (.write (addrOf s.plat off.toNat) .word d) = false := by simp [hs, hctrl]
    have refused : HostEffect s (.write (addrOf s.plat off.toNat) .word d) (s.refuseAccess.respond .ack) :=
      .other hs ⟨rfl, rfl, rfl, rfl, rfl, fun hb => ⟨hb, rfl⟩⟩
    split
    · exact .other hs ⟨rfl, rfl, rfl, rfl, rfl, fun hb => ⟨hb, rfl⟩⟩
    · split
      · cases hb : s.busy with
        | true => rw [State.cmdWrite_busy hb]; exact refused
        | false =>
          rw [State.cmdWrite_idle hb]
          exact .other hs ⟨rfl, rfl, rfl, rfl, rfl, fun hb' => by simp [hb] at hb'⟩
      · split
        · next hin =>
          cases hb : s.busy with
          | true => rw [State.operandWrite_busy hb]; exact refused
          | false =>
            rw [State.operandWrite_idle hb]
            split
            · next hw => exact .operand hb _ _ d hw (by rw [← eq_operandOffset hin h4]) hs
            · exact .other hs (.respond s .ack)
        · exact .other hs (.respond s .ack)

theorem hostAccess_hostEffect {op : HostOp} {s t : State} (h : hostAccess op s = .next t) : HostEffect s op t := by
  have outside : ∀ {op}, softResets s.plat op = false → HostEffect s op (s.respond .notSelected) :=
    fun hs => .other hs (.respond s _)
  cases op with
  | read addr width =>
    simp only [hostAccess] at h
    split at h
    · cases h; exact .other rfl (s.hostRead_leavesData _)
    · cases h
    · cases h; exact outside rfl
  | write addr width d =>
    simp only [hostAccess] at h
    split at h
    · next hsel => cases h; exact hostWrite_effect s d hsel
    · cases h
    · next hsel => cases h; exact outside (by simp [softResets, hsel])
  | fetch addr =>
    simp only [hostAccess] at h
    split at h
    · cases h
    · cases h; exact outside rfl

/-! One step, told apart by the turn it took. -/

/-- What a step that answers a next state did, and which turn of `s` that was. -/
inductive StepTaken (s : State) : State → Prop where
  /-- the engine completed the command in flight -/
  | completed (hc : completesNext s = true) (hr : resetsNext s = false) (rest : List Turn) (r : Except CmdError State)
      (hw : ∀ t, r = .ok t → ∃ i, decode s.cmd = some i ∧ Wrote i { s with agenda := rest } t) :
      StepTaken s (State.complete { s with agenda := rest } r)
  /-- the engine had nothing to do -/
  | idle (hc : completesNext s = false) (hr : resetsNext s = false) (rest : List Turn) :
      StepTaken s { s with agenda := rest }
  /-- the host had an access -/
  | host {op : HostOp} (rest : List Turn) (ha : s.agenda = .host op :: rest) {t : State}
      (h : HostEffect { s with agenda := rest } op t) : StepTaken s t
  /-- the platform reset the block -/
  | rst {rest : List Turn} (ha : s.agenda = .rst :: rest) : StepTaken s (State.hardReset { s with agenda := rest })

theorem completesNext_host {s : State} {op : HostOp} {rest : List Turn} (ha : s.agenda = .host op :: rest) :
    completesNext s = false := by simp [completesNext, ha]

theorem completesNext_rst {s : State} {rest : List Turn} (ha : s.agenda = .rst :: rest) : completesNext s = false := by
  simp [completesNext, ha]

theorem resetsNext_host {s : State} {op : HostOp} {rest : List Turn} (ha : s.agenda = .host op :: rest) :
    resetsNext s = softResets s.plat op := by simp [resetsNext, ha]

theorem resetsNext_rst {s : State} {rest : List Turn} (ha : s.agenda = .rst :: rest) : resetsNext s = true := by
  simp [resetsNext, ha]

/-- The engine's turn of a state `u` that is `s` without the turn taken. -/
theorem engineTurn_taken {s t : State} (rest : List Turn) (hc : completesNext s = s.busy) (hr : resetsNext s = false)
    (h : engineTurn { s with agenda := rest } = .next t) : StepTaken s t := by
  unfold engineTurn at h
  split at h
  · next hb =>
    obtain ⟨r, he, hw⟩ := completeCommand_completes { s with agenda := rest }
    rw [he] at h
    cases h
    exact .completed (hc.trans hb) hr rest r hw
  · next hb => cases h; exact .idle (hc.trans (by simpa using hb)) hr rest

theorem step_taken {s t : State} (h : step s = .next t) : StepTaken s t := by
  obtain ⟨hl, -⟩ := step_effect h
  rw [step_of_legal hl] at h
  cases ha : s.agenda with
  | nil =>
    rw [nextTurn_nil ha] at h
    exact engineTurn_taken s.agenda (by simp [completesNext, ha]) (by simp [resetsNext, ha]) h
  | cons turn rest =>
    rw [nextTurn_cons ha] at h
    cases turn with
    | host op => exact .host rest ha (hostAccess_hostEffect h)
    | engine => exact engineTurn_taken rest (by simp [completesNext, ha]) (by simp [resetsNext, ha]) h
    | rst => cases h; exact .rst ha

end Sys2Proof.Machine
end

section
/-! PROOFS. Noninterference of a completion: the values it can depend on (R36, R92). -/

namespace Sys2Proof.Machine

/-- Execute of the command `i` went the same way on `s` and on `t`: the same error, the same value written to the same register,
or the same modulus loaded. -/
inductive SameExecute (i : Instr) (s t : State) : Except CmdError State → Except CmdError State → Prop where
  | error (e : CmdError) : SameExecute i s t (.error e) (.error e)
  | nothing (hi : i = .nop) : SameExecute i s t (.ok s) (.ok t)
  | write {rd : Reg} (hd : destOf i = some rd) (x : Nat) :
      SameExecute i s t (.ok (s.writeReg rd x)) (.ok (t.writeReg rd x))
  | load (hd : destOf i = none) (m : Nat) : SameExecute i s t (.ok (s.loadModulus m)) (.ok (t.loadModulus m))

theorem SameExecute.ite {i : Instr} {s t : State} {c : Prop} [Decidable c] {a b a' b' : Except CmdError State}
    (ha : SameExecute i s t a a') (hb : SameExecute i s t b b') :
    SameExecute i s t (if c then a else b) (if c then a' else b') := by
  split
  · exact ha
  · exact hb

/-- A command that needs the modulus goes the same way without one, whatever its operands (R108, R110). -/
theorem SameExecute.withModulus {i : Instr} {s t : State} {k k' : Nat → Except CmdError State} (hmv : s.mv = t.mv)
    (h : s.mv = true → SameExecute i s t (k s.n) (k' t.n)) : SameExecute i s t (s.withModulus k) (t.withModulus k') := by
  cases hs : s.mv with
  | true => rw [State.withModulus_loaded hs, State.withModulus_loaded (hmv ▸ hs)]; exact h hs
  | false => rw [State.withModulus_none hs, State.withModulus_none (hmv ▸ hs)]; exact .error _

theorem sameExecute_inverse {rd rs1 rs2 : Reg} {s t : State} (a m : Nat) :
    SameExecute (.modinv rd rs1 rs2) s t ((inverseResult a m).map (s.writeReg rd))
      ((inverseResult a m).map (t.writeReg rd)) := by
  cases inverseResult a m with
  | error e => exact .error e
  | ok x => exact .write rfl x

/-- What Execute can depend on: MV, `N` while a modulus is loaded, OPW, and the source registers, the last only where the check of
MV lets the command read them (R110). -/
structure SameInputs (i : Instr) (s t : State) : Prop where
  mv : s.mv = t.mv
  n : s.mv = true → s.n = t.n
  opw : s.plat.opw = t.plat.opw
  sources : (needsModulus i = true → s.mv = true) → ∀ r ∈ sourcesOf i, s.readReg r = t.readReg r

/-- The operand of a command of one source that is not stopped by NOMOD. -/
theorem SameInputs.operand {i : Instr} {s t : State} (h : SameInputs i s t) (hread : needsModulus i = true → s.mv = true)
    {a : Reg} (hs : sourcesOf i = [a]) : s.readReg a = t.readReg a :=
  h.sources hread a (by simp [hs])

/-- The operands of a command of two sources that is not stopped by NOMOD. -/
theorem SameInputs.operands {i : Instr} {s t : State} (h : SameInputs i s t) (hread : needsModulus i = true → s.mv = true)
    {a b : Reg} (hs : sourcesOf i = [a, b]) : s.readReg a = t.readReg a ∧ s.readReg b = t.readReg b :=
  ⟨h.sources hread a (by simp [hs]), h.sources hread b (by simp [hs])⟩

/-- Execute goes the same way on states with the same inputs, command by command (R36, R92). -/
theorem exec_sameExecute {i : Instr} {s t : State} (h : SameInputs i s t) :
    ∃ a b, exec i s = .next (s.complete a) ∧ exec i t = .next (t.complete b) ∧ SameExecute i s t a b := by
  cases i with
  | nop => exact ⟨_, _, rfl, rfl, .nothing rfl⟩
  | mov rd rs1 =>
    refine ⟨_, _, rfl, rfl, ?_⟩
    rw [h.operand nofun rfl]
    exact .write rfl _
  | ldi rd imm => exact ⟨_, _, rfl, rfl, .write rfl _⟩
  | setmod rs1 =>
    refine ⟨_, _, rfl, rfl, ?_⟩
    rw [h.operand nofun rfl]
    exact .ite (.error _) (.load rfl _)
  | montmul rd rs1 rs2 =>
    refine ⟨_, _, rfl, rfl, .withModulus h.mv fun hmv => ?_⟩
    obtain ⟨ha, hb⟩ := h.operands (fun _ => hmv) rfl
    rw [ha, hb, h.n hmv, h.opw]
    exact .ite (.error _) (.write rfl _)
  | tomont rd rs1 =>
    refine ⟨_, _, rfl, rfl, .withModulus h.mv fun hmv => ?_⟩
    rw [h.operand (fun _ => hmv) rfl, h.n hmv, h.opw]
    exact .ite (.error _) (.write rfl _)
  | frommont rd rs1 =>
    refine ⟨_, _, rfl, rfl, .withModulus h.mv fun hmv => ?_⟩
    rw [h.operand (fun _ => hmv) rfl, h.n hmv, h.opw]
    exact .ite (.error _) (.write rfl _)
  | modexp rd rs1 rs2 =>
    refine ⟨_, _, rfl, rfl, .withModulus h.mv fun hmv => ?_⟩
    obtain ⟨ha, hb⟩ := h.operands (fun _ => hmv) rfl
    rw [ha, hb, h.n hmv]
    exact .ite (.error _) (.write rfl _)
  | modexpChk rd rs1 rs2 =>
    refine ⟨_, _, rfl, rfl, .withModulus h.mv fun hmv => ?_⟩
    obtain ⟨ha, hb⟩ := h.operands (fun _ => hmv) rfl
    rw [ha, hb, h.n hmv]
    exact .ite (.error _) (.write rfl _)
  | modmul rd rs1 rs2 =>
    refine ⟨_, _, rfl, rfl, .withModulus h.mv fun hmv => ?_⟩
    obtain ⟨ha, hb⟩ := h.operands (fun _ => hmv) rfl
    rw [ha, hb, h.n hmv]
    exact .write rfl _
  | modred rd rs1 rs2 =>
    refine ⟨_, _, rfl, rfl, .withModulus h.mv fun hmv => ?_⟩
    obtain ⟨ha, hb⟩ := h.operands (fun _ => hmv) rfl
    rw [ha, hb, h.n hmv, h.opw]
    exact .write rfl _
  | gcd rd rs1 rs2 =>
    refine ⟨_, _, rfl, rfl, ?_⟩
    obtain ⟨ha, hb⟩ := h.operands nofun rfl
    rw [ha, hb]
    exact .write rfl _
  | modinv rd rs1 rs2 =>
    refine ⟨_, _, rfl, rfl, ?_⟩
    obtain ⟨ha, hb⟩ := h.operands nofun rfl
    rw [ha, hb]
    exact sameExecute_inverse _ _

/-- Settles O12: by `exec_sameExecute` both completions report the same error, or wrote the same value. -/
theorem resultsDependOnOperandsAlone : Obligations.ResultsDependOnOperandsAlone := by
  intro i s t hsrc hn hmv hopw
  obtain ⟨a, b, hs, ht, hab⟩ := exec_sameExecute (i := i) ⟨hmv, fun _ => hn, hopw, fun _ => hsrc⟩
  refine ⟨_, _, hs, ht, ?_⟩
  cases hab with
  | error e => exact ⟨rfl, hn, hmv, fun he => absurd he e.code_ne_zero⟩
  | nothing hi => subst hi; exact ⟨rfl, hn, hmv, nofun⟩
  | write hd x =>
    refine ⟨rfl, hn, hmv, fun _ r hr => ?_⟩
    obtain rfl : _ = r := Option.some.inj (hd.symm.trans hr)
    simp
  | load hd m => exact ⟨rfl, rfl, rfl, fun _ r hr => by simp [hd] at hr⟩

end Sys2Proof.Machine
end

section
/-! PROOFS. No outcome of the strict machine depends on what never-written registers hold, nor on `N` while no modulus is loaded
(R21, R23, 93 U1, U3). -/

namespace Sys2Proof.Machine

/-! Two states that agree on what has been written. -/

/-- The state with other values in V0 to V7 and `N`. -/
def State.withValues (s : State) (v : Vector Nat 8) (n : Nat) : State := { s with v := v, n := n }

@[simp] theorem State.withValues_self (s : State) : s.withValues s.v s.n = s := rfl
@[simp] theorem State.withValues_v (s : State) (v : Vector Nat 8) (n : Nat) : (s.withValues v n).v = v := rfl
@[simp] theorem State.withValues_n (s : State) (v : Vector Nat 8) (n : Nat) : (s.withValues v n).n = n := rfl
@[simp] theorem State.withValues_busy (s : State) (v : Vector Nat 8) (n : Nat) : (s.withValues v n).busy = s.busy := rfl
@[simp] theorem State.withValues_draws (s : State) (v : Vector Nat 8) (n : Nat) : (s.withValues v n).draws = s.draws := rfl
@[simp] theorem State.withValues_isOperandWord (s : State) (v : Vector Nat 8) (n : Nat) (off : Offset) :
    (s.withValues v n).isOperandWord off = s.isOperandWord off := rfl

/-- A state that agrees with `s` is `s` with other values in V0 to V7 and `N`. -/
theorem State.AgreeOnWritten.exists_values {s t : State} (h : s.AgreeOnWritten t) : ∃ v n, t = s.withValues v n := by
  obtain ⟨-, -, hrest⟩ := h
  exact ⟨t.v, t.n, hrest.symm⟩

theorem State.AgreeOnWritten.plat {s t : State} (h : s.AgreeOnWritten t) : s.plat = t.plat := by
  obtain ⟨v, n, rfl⟩ := h.exists_values; rfl

theorem State.AgreeOnWritten.busy {s t : State} (h : s.AgreeOnWritten t) : s.busy = t.busy := by
  obtain ⟨v, n, rfl⟩ := h.exists_values; rfl

theorem State.AgreeOnWritten.cmd {s t : State} (h : s.AgreeOnWritten t) : s.cmd = t.cmd := by
  obtain ⟨v, n, rfl⟩ := h.exists_values; rfl

theorem State.AgreeOnWritten.mv {s t : State} (h : s.AgreeOnWritten t) : s.mv = t.mv := by
  obtain ⟨v, n, rfl⟩ := h.exists_values; rfl

theorem State.AgreeOnWritten.modulus {s t : State} (h : s.AgreeOnWritten t) : s.mv = true → s.n = t.n := by
  obtain ⟨-, hn, -⟩ := h; exact hn

theorem State.AgreeOnWritten.agenda {s t : State} (h : s.AgreeOnWritten t) : s.agenda = t.agenda := by
  obtain ⟨v, n, rfl⟩ := h.exists_values; rfl

theorem State.AgreeOnWritten.turnReads {s t : State} (h : s.AgreeOnWritten t) : s.turnReads = t.turnReads := by
  obtain ⟨v, n, rfl⟩ := h.exists_values; rfl

theorem State.AgreeOnWritten.regWritten {s t : State} (h : s.AgreeOnWritten t) (r : Reg) :
    s.regWritten r = t.regWritten r := by
  obtain ⟨v, n, rfl⟩ := h.exists_values; rfl

/-- A register written whole holds the same value, because its words are the same (R40). -/
theorem State.AgreeOnWritten.readReg_eq {s t : State} (h : s.AgreeOnWritten t) (hs : s.Inv) (ht : t.Inv) {r : Reg}
    (hr : s.regWritten r = true) : s.readReg r = t.readReg r := by
  obtain ⟨hopw, -⟩ := Platform.opw_eq hs.legal
  have hlts := hs.readReg_lt r
  have hltt := ht.readReg_lt r
  rw [← h.plat] at hltt
  rw [hopw] at hlts hltt
  obtain ⟨hwords, -⟩ := h
  exact eq_of_operandWord_eq hlts hltt fun w hw => hwords r w hw (by simp [(regWritten_iff s r).mp hr])

/-! Each operation of the state keeps the agreement. -/

/-- An operation that reads and changes neither V0 to V7 nor `N`, and leaves MV, the parameters and the bookkeeping alone. -/
theorem State.AgreeOnWritten.map {s t : State} (h : s.AgreeOnWritten t) (f : State → State)
    (hvalues : ∀ u v n, f (u.withValues v n) = (f u).withValues v n)
    (hkeep : ∀ u, (f u).mv = u.mv ∧ (f u).plat = u.plat ∧ (f u).unwritten = u.unwritten) :
    (f s).AgreeOnWritten (f t) := by
  have hv : ∀ u, (f u).v = u.v := fun u => by simpa using congrArg State.v (hvalues u u.v u.n)
  have hn : ∀ u, (f u).n = u.n := fun u => by simpa using congrArg State.n (hvalues u u.v u.n)
  obtain ⟨v, n, rfl⟩ := h.exists_values
  obtain ⟨hwords, hmod, -⟩ := h
  obtain ⟨hmv, hplat, hunw⟩ := hkeep s
  rw [hvalues]
  refine ⟨?_, ?_, rfl⟩
  · simpa only [State.readReg, hv, hplat, hunw, State.withValues_v] using hwords
  · simpa only [hn, hmv, State.withValues_n] using hmod

theorem State.AgreeOnWritten.with_agenda {s t : State} (h : s.AgreeOnWritten t) (rest : List Turn) :
    State.AgreeOnWritten { s with agenda := rest } { t with agenda := rest } :=
  h.map ({ · with agenda := rest }) (fun _ _ _ => rfl) fun _ => ⟨rfl, rfl, rfl⟩

theorem State.AgreeOnWritten.respond {s t : State} (h : s.AgreeOnWritten t) (a : Response) :
    (s.respond a).AgreeOnWritten (t.respond a) :=
  h.map (·.respond a) (fun _ _ _ => rfl) fun _ => ⟨rfl, rfl, rfl⟩

theorem State.AgreeOnWritten.draw {s t : State} (h : s.AgreeOnWritten t) : s.draw.AgreeOnWritten t.draw :=
  h.map State.draw (fun _ _ _ => rfl) fun _ => ⟨rfl, rfl, rfl⟩

theorem State.AgreeOnWritten.finish {s t : State} (h : s.AgreeOnWritten t) (code : BitVec 4) :
    (s.finish code).AgreeOnWritten (t.finish code) :=
  h.map (·.finish code) (fun _ _ _ => rfl) fun _ => ⟨rfl, rfl, rfl⟩

theorem State.AgreeOnWritten.accept {s t : State} (h : s.AgreeOnWritten t) (w : Word) :
    (s.accept w).AgreeOnWritten (t.accept w) :=
  h.map (·.accept w) (fun _ _ _ => rfl) fun _ => ⟨rfl, rfl, rfl⟩

theorem State.AgreeOnWritten.statusWrite {s t : State} (h : s.AgreeOnWritten t) (d : Word) :
    (s.statusWrite d).AgreeOnWritten (t.statusWrite d) :=
  h.map (·.statusWrite d) (fun _ _ _ => rfl) fun _ => ⟨rfl, rfl, rfl⟩

theorem State.AgreeOnWritten.setIe {s t : State} (h : s.AgreeOnWritten t) (d : Word) :
    (s.setIe d).AgreeOnWritten (t.setIe d) :=
  h.map (·.setIe d) (fun _ _ _ => rfl) fun _ => ⟨rfl, rfl, rfl⟩

theorem State.AgreeOnWritten.refuseAccess {s t : State} (h : s.AgreeOnWritten t) :
    s.refuseAccess.AgreeOnWritten t.refuseAccess :=
  h.map State.refuseAccess (fun _ _ _ => rfl) fun _ => ⟨rfl, rfl, rfl⟩

theorem State.AgreeOnWritten.loadModulus {s t : State} (h : s.AgreeOnWritten t) (m : Nat) :
    (s.loadModulus m).AgreeOnWritten (t.loadModulus m) := by
  obtain ⟨v, n, rfl⟩ := h.exists_values
  obtain ⟨hwords, -, -⟩ := h
  exact ⟨hwords, fun _ => rfl, rfl⟩

/-- After either reset no modulus is loaded, and the free values drawn are the same. -/
theorem State.AgreeOnWritten.softReset {s t : State} (h : s.AgreeOnWritten t) : s.softReset.AgreeOnWritten t.softReset := by
  obtain ⟨v, n, rfl⟩ := h.exists_values
  obtain ⟨hwords, -, -⟩ := h
  exact ⟨hwords, nofun, rfl⟩

theorem State.AgreeOnWritten.hardReset {s t : State} (h : s.AgreeOnWritten t) : s.hardReset.AgreeOnWritten t.hardReset := by
  obtain ⟨v, n, rfl⟩ := h.exists_values
  exact ⟨fun _ _ _ _ => rfl, nofun, rfl⟩

/-- The register written agrees in every word, and the others as before. -/
theorem State.AgreeOnWritten.writeReg {s t : State} (h : s.AgreeOnWritten t) (r : Reg) (x : Nat) :
    (s.writeReg r x).AgreeOnWritten (t.writeReg r x) := by
  obtain ⟨v, n, rfl⟩ := h.exists_values
  obtain ⟨hwords, hn, -⟩ := h
  refine ⟨fun i w hw hwritten => ?_, hn, rfl⟩
  rw [State.unwritten_writeReg] at hwritten
  rw [State.readReg_writeReg, State.readReg_writeReg]
  by_cases hi : i = r
  · simp [hi]
  · rw [if_neg hi] at hwritten ⊢
    rw [if_neg hi]
    exact hwords i w hw hwritten

/-- The word written agrees, and every other word as before (R40). -/
theorem State.AgreeOnWritten.writeRegWord {s t : State} (h : s.AgreeOnWritten t) (r : Reg) (k : Nat) (d : Word) :
    (s.writeRegWord r k d).AgreeOnWritten (t.writeRegWord r k d) := by
  obtain ⟨v, n, rfl⟩ := h.exists_values
  obtain ⟨hwords, hn, -⟩ := h
  refine ⟨fun i w hw hwritten => ?_, hn, rfl⟩
  rw [State.unwritten_writeRegWord] at hwritten
  rw [State.readReg_writeRegWord, State.readReg_writeRegWord]
  by_cases hi : i = r
  · subst hi
    rw [if_pos rfl, operandWord_setOperandWord, if_pos rfl, operandWord_setOperandWord]
    by_cases hk : w = k
    · simp [hk]
    · rw [if_neg hk, if_neg hk]
      exact hwords i w hw fun hold => hwritten (by simp [hold, hk])
  · rw [if_neg hi] at hwritten ⊢
    rw [if_neg hi]
    exact hwords i w hw hwritten

theorem State.AgreeOnWritten.ite {c c' : Prop} [Decidable c] [Decidable c'] (hc : c ↔ c') {s s' t t' : State}
    (hs : s.AgreeOnWritten s') (ht : t.AgreeOnWritten t') : (if c then s else t).AgreeOnWritten (if c' then s' else t') := by
  by_cases h : c
  · rwa [if_pos h, if_pos (hc.mp h)]
  · rwa [if_neg h, if_neg (mt hc.mpr h)]

/-! Each agent's turn keeps the agreement, where the registers it reads have been written whole. -/

theorem State.AgreeOnWritten.busWrite {s t : State} (h : s.AgreeOnWritten t) (off : Offset) (d : Word) :
    (s.busWrite off d).AgreeOnWritten (t.busWrite off d) := by
  have hbusy : s.busy = true ↔ t.busy = true := by rw [h.busy]
  have hnw : offsetWord off < s.plat.nw ↔ offsetWord off < t.plat.nw := by rw [h.plat]
  have hctrl : (s.ctrlWrite d).AgreeOnWritten (t.ctrlWrite d) := .ite .rfl h.softReset (h.setIe d)
  have hcmd : (s.cmdWrite d).AgreeOnWritten (t.cmdWrite d) := .ite hbusy h.refuseAccess (h.accept d)
  have hoperand : (s.operandWrite off d).AgreeOnWritten (t.operandWrite off d) :=
    .ite hbusy h.refuseAccess (.ite hnw (h.writeRegWord _ _ d) h)
  exact .ite .rfl hctrl (.ite .rfl (h.statusWrite d) (.ite .rfl hcmd (.ite .rfl hoperand h)))

/-- A read gives the same value where the register it reads holds the same (R48, R51). -/
theorem State.AgreeOnWritten.busRead {s t : State} (h : s.AgreeOnWritten t) {off : Offset}
    (hread : ∀ r ∈ s.busReads off, s.readReg r = t.readReg r) : s.busRead off = t.busRead off := by
  obtain ⟨v, n, rfl⟩ := h.exists_values
  have hwindow : s.readOperandWindow off = (s.withValues v n).readOperandWindow off := by
    cases hword : s.isOperandWord off with
    | false => simp [State.readOperandWindow, hword]
    | true =>
      cases hb : s.busy with
      | true => simp [State.readOperandWindow, hword, hb]
      | false =>
        have hreg := hread (offsetReg off) (by simp [State.busReads, hword, hb])
        simp [State.readOperandWindow, hword, hb, hreg]
  unfold State.busRead
  rw [hwindow]
  rfl

theorem State.AgreeOnWritten.hostRead {s t : State} (h : s.AgreeOnWritten t) {off : Offset}
    (hread : ∀ r ∈ s.busReads off, s.readReg r = t.readReg r) : (s.hostRead off).AgreeOnWritten (t.hostRead off) := by
  have hfree : s.readIsFree off = t.readIsFree off := by obtain ⟨v, n, rfl⟩ := h.exists_values; rfl
  unfold State.hostRead
  rw [h.busRead hread, hfree]
  exact .ite .rfl (h.respond _).draw (h.respond _)

theorem hostAccess_agree {s t : State} (h : s.AgreeOnWritten t) {op : HostOp}
    (hread : ∀ r ∈ s.accessReads op, s.readReg r = t.readReg r) : OutcomesAgree (hostAccess op s) (hostAccess op t) := by
  have houtside := h.respond .notSelected
  cases op with
  | read addr width =>
    simp only [State.accessReads] at hread
    simp only [hostAccess, ← h.plat]
    cases hsel : select s.plat addr width with
    | hit off => rw [hsel] at hread; exact h.hostRead hread
    | busError off => rfl
    | outside => exact houtside
  | write addr width d =>
    simp only [hostAccess, ← h.plat]
    cases select s.plat addr width with
    | hit off => exact (h.busWrite off d).respond .ack
    | busError off => rfl
    | outside => exact houtside
  | fetch addr =>
    simp only [hostAccess, ← h.plat]
    cases inWindow s.plat addr with
    | true => rfl
    | false => exact houtside

theorem SameExecute.complete {i : Instr} {s t : State} (h : s.AgreeOnWritten t) {a b : Except CmdError State}
    (hab : SameExecute i s t a b) : (s.complete a).AgreeOnWritten (t.complete b) := by
  cases hab with
  | error e => exact h.finish e.code
  | nothing _ => exact h.finish 0#4
  | write _ x => exact (h.writeReg _ x).finish 0#4
  | load _ m => exact (h.loadModulus m).finish 0#4

/-- A command that is not stopped by NOMOD reads its sources (R110). -/
theorem completionReads_of_decode {s : State} {i : Instr} (hi : decode s.cmd = some i)
    (hread : needsModulus i = true → s.mv = true) : s.completionReads = sourcesOf i := by
  simp only [State.completionReads, hi]
  rw [if_neg (by simpa using hread)]

/-- The completion of the command in flight, where the operands it reads are the same (R110). -/
theorem completeCommand_agree {s t : State} (h : s.AgreeOnWritten t)
    (hread : ∀ r ∈ s.completionReads, s.readReg r = t.readReg r) :
    OutcomesAgree (completeCommand s) (completeCommand t) := by
  unfold completeCommand
  rw [← h.cmd]
  cases hi : decode s.cmd with
  | none => exact h.finish CmdError.illegal.code
  | some i =>
    have hin : SameInputs i s t :=
      ⟨h.mv, h.modulus, by rw [h.plat], fun hmod r hr => hread r (completionReads_of_decode hi hmod ▸ hr)⟩
    obtain ⟨a, b, hs, ht, hab⟩ := exec_sameExecute hin
    simp only [hs, ht]
    exact hab.complete h

theorem engineTurn_agree {s t : State} (h : s.AgreeOnWritten t)
    (hread : ∀ r ∈ s.engineReads, s.readReg r = t.readReg r) : OutcomesAgree (engineTurn s) (engineTurn t) := by
  unfold engineTurn
  rw [← h.busy]
  cases hb : s.busy with
  | true =>
    rw [State.engineReads, if_pos hb] at hread
    exact completeCommand_agree h hread
  | false => exact h

theorem nextTurn_agree {s t : State} (h : s.AgreeOnWritten t)
    (hread : ∀ r ∈ s.turnReads, s.readReg r = t.readReg r) : OutcomesAgree (nextTurn s) (nextTurn t) := by
  unfold nextTurn
  rw [← h.agenda]
  unfold State.turnReads at hread
  split at hread
  · next ha => rw [ha]; exact engineTurn_agree h hread
  · next rest ha => rw [ha]; exact engineTurn_agree (h.with_agenda rest) hread
  · next op rest ha => rw [ha]; exact hostAccess_agree (h.with_agenda rest) hread
  · next rest ha => rw [ha]; exact (h.with_agenda rest).hardReset

/-- Settles O60: the strict machine faults alike on both states, or every register the turn reads is written whole, so its value
is the same in both, and the turn keeps the agreement. -/
theorem unwrittenValuesAreUnobservable : Obligations.UnwrittenValuesAreUnobservable := by
  intro s t hs ht h
  unfold strictStep
  rw [if_pos hs.legal, if_pos ht.legal, ← h.turnReads]
  simp only [← h.regWritten]
  split
  · rfl
  · next hfind =>
    have hwritten : ∀ r ∈ s.turnReads, s.regWritten r = true := by simpa [List.find?_eq_none] using hfind
    rw [step_of_legal hs.legal, step_of_legal ht.legal]
    exact nextTurn_agree h fun r hr => h.readReg_eq hs ht (hwritten r hr)

end Sys2Proof.Machine
end

section
/-! PROOFS. What changes the operand registers, `N`, MV and `CMDCNT` over every step, and what a completion leaves unchanged (R20,
R22, R23, R31, R78). -/

namespace Sys2Proof.Machine

open Sys2Proof.Expect

/-! What Execute's writes leave unchanged. -/

/-- An operand register that differs after Execute is the one the RD field names (R20). -/
theorem Wrote.frame_reg {i : Instr} {s t : State} (h : Wrote i s t) {r : Reg} (hr : destOf i ≠ some r) :
    t.readReg r = s.readReg r ∧ t.unwritten[r.val] = s.unwritten[r.val] := by
  rcases h with ⟨-, rfl⟩ | ⟨rd, x, hd, rfl⟩ | ⟨a, -, -, rfl⟩
  · exact ⟨rfl, rfl⟩
  · have hne : r ≠ rd := fun he => hr (he ▸ hd)
    rw [State.readReg_writeReg, State.unwritten_writeReg, if_neg hne, if_neg hne]
    exact ⟨rfl, rfl⟩
  · exact ⟨rfl, rfl⟩

/-- `N` and MV differ after Execute of a SETMOD only (R22). -/
theorem Wrote.frame_modulus {i : Instr} {s t : State} (h : Wrote i s t) (hi : ∀ a, i ≠ .setmod a) :
    t.n = s.n ∧ t.mv = s.mv := by
  rcases h with ⟨-, rfl⟩ | ⟨rd, x, -, rfl⟩ | ⟨a, rfl, -, -⟩
  · exact ⟨rfl, rfl⟩
  · exact ⟨rfl, rfl⟩
  · exact absurd rfl (hi a)

/-- What no command writes (R78). -/
structure SameControl (s t : State) : Prop where
  ovr : t.ovr = s.ovr
  ie : t.ie = s.ie
  cmd : t.cmd = s.cmd
  cmdcnt : t.cmdcnt = s.cmdcnt
  plat : t.plat = s.plat
  agenda : t.agenda = s.agenda
  resp : t.resp = s.resp
  draws : t.draws = s.draws

theorem Wrote.sameControl {i : Instr} {s t : State} (h : Wrote i s t) : SameControl s t := by
  rcases h with ⟨-, rfl⟩ | ⟨rd, x, -, rfl⟩ | ⟨a, -, -, rfl⟩ <;> exact ⟨rfl, rfl, rfl, rfl, rfl, rfl, rfl, rfl⟩

/-- Settles O10: an error writes nothing, and Execute writes what `Wrote` says. -/
theorem commandFrame : Obligations.CommandFrame := by
  intro i s t he
  obtain ⟨r, hexec, hcompletes⟩ := exec_completes i s
  rw [hexec] at he
  cases he
  cases r with
  | error e => exact ⟨fun _ _ => ⟨rfl, rfl⟩, fun _ => ⟨rfl, rfl⟩, rfl, rfl, rfl, rfl, rfl, rfl, rfl⟩
  | ok u =>
    have hw := hcompletes u rfl
    have hc := hw.sameControl
    exact ⟨fun _ hr => hw.frame_reg hr, hw.frame_modulus, hc.ovr, hc.ie, hc.cmd, hc.plat, hc.agenda, hc.resp, hc.draws⟩

/-! Over every step. -/

/-- Settles O52, by the turn the step took: only an idle host's operand write, a completion without error and `rst` touch `v`. -/
theorem registersChangeOnlyAsStated : Obligations.RegistersChangeOnlyAsStated := by
  intro s t r h hne
  cases step_taken h with
  | completed hc _ rest res hw =>
    cases res with
    | error e => exact absurd rfl hne
    | ok u =>
      obtain ⟨i, hi, hwrote⟩ := hw u rfl
      refine .inr (.inl ⟨hc, rfl, i, hi, ?_⟩)
      by_contra hd
      obtain ⟨hsame, -⟩ := hwrote.frame_reg hd
      exact hne hsame
  | idle _ _ rest => exact absurd rfl hne
  | rst ha => exact .inr (.inr ⟨_, ha⟩)
  | host rest ha he =>
    cases he with
    | softReset _ => exact absurd rfl hne
    | other _ hkeep => exact absurd (by simp [State.readReg, hkeep.v]) hne
    | operand hb r' w d hw hop _ =>
      refine .inl ⟨hb, w, d, rest, hw, ?_⟩
      have hr : r = r' := by
        by_contra hrr
        rw [State.respond_readReg, State.readReg_writeRegWord, if_neg hrr] at hne
        exact hne rfl
      rw [ha, hop, hr]
      rfl

/-- Settles O50, by the turn the step took. -/
theorem counterCountsCompletions : Obligations.CounterCountsCompletions := by
  intro s t h
  cases step_taken h with
  | completed hc _ rest res hw =>
    rw [if_pos hc]
    cases res with
    | error e => rfl
    | ok u =>
      obtain ⟨i, -, hwrote⟩ := hw u rfl
      rw [State.complete_ok, State.finish_cmdcnt, hwrote.sameControl.cmdcnt]
  | idle hc hr rest => simp [hc, hr]
  | rst ha => simp [completesNext_rst ha, resetsNext_rst ha]
  | host rest ha he =>
    rw [completesNext_host ha, resetsNext_host ha]
    cases he with
    | softReset hop => simp [show softResets s.plat _ = true from hop]
    | operand _ _ _ _ _ _ hop => simp [show softResets s.plat _ = false from hop]
    | other hop hkeep => simpa [show softResets s.plat _ = false from hop] using hkeep.cmdcnt

/-- SETMOD keeps the moduli that are not bad (R83). -/
theorem goodModulus_of_not_bad {m : Nat} (h : badModulus m = false) : goodModulus m := by
  simpa [badModulus, goodModulus] using h

/-- Settles O51, by the turn the step took. -/
theorem modulusChangesOnlyBySetmod : Obligations.ModulusChangesOnlyBySetmod := by
  intro s t h
  cases step_taken h with
  | completed hc hr rest res hw =>
    cases res with
    | error e => exact .inr (.inr ⟨hr, rfl, rfl⟩)
    | ok u =>
      obtain ⟨i, hi, hwrote⟩ := hw u rfl
      rcases hwrote with ⟨-, rfl⟩ | ⟨rd, x, -, rfl⟩ | ⟨a, rfl, hgood, rfl⟩
      · exact .inr (.inr ⟨hr, rfl, rfl⟩)
      · exact .inr (.inr ⟨hr, rfl, rfl⟩)
      · exact .inl ⟨a, hc, hi, goodModulus_of_not_bad hgood, rfl, rfl⟩
  | idle _ hr rest => exact .inr (.inr ⟨hr, rfl, rfl⟩)
  | rst ha => exact .inr (.inl ⟨resetsNext_rst ha, rfl⟩)
  | host rest ha he =>
    rw [resetsNext_host ha]
    cases he with
    | softReset hop => exact .inr (.inl ⟨hop, rfl⟩)
    | operand _ _ _ _ _ _ hop => exact .inr (.inr ⟨hop, rfl, rfl⟩)
    | other hop hkeep => exact .inr (.inr ⟨hop, hkeep.n, hkeep.mv⟩)

end Sys2Proof.Machine
end

section
/-! PROOFS. The control registers on the bus (R25 to R31), both resets (R37, R125, R126) and the interrupt output (R33, R117). -/

namespace Sys2Proof.Machine

open Sys2Proof.Expect

/-- Settles O7: the write is `cmdWrite`, an acceptance or a refusal by BUSY. -/
theorem commandRegister : Obligations.CommandRegister := by
  intro s w hl
  refine ⟨fun hb => step_hostCmd_idle hl hb w, fun hb => step_hostCmd_busy hl hb w, ?_⟩
  exact step_hostR_control hl (by decide) (by decide) s.busRead_cmd

/-- Settles O34: each offset has its one arm of `busRead` and none of `busWrite`. -/
theorem readOnlyRegisters : Obligations.ReadOnlyRegisters := by
  intro s d hl
  refine ⟨?_, ?_, ?_, ?_, ?_, ?_⟩
  · exact step_hostR_control hl (by decide) (by decide) s.busRead_id
  · exact step_hostR_control hl (by decide) (by decide) s.busRead_cfg
  · exact step_hostR_control hl (by decide) (by decide) s.busRead_cmdcnt
  · exact step_hostW_ignored hl d (by decide) (by decide) (s.busWrite_id d)
  · exact step_hostW_ignored hl d (by decide) (by decide) (s.busWrite_cfg d)
  · exact step_hostW_ignored hl d (by decide) (by decide) (s.busWrite_cmdcnt d)

theorem State.ctrlValue_eq (s : State) : s.ctrlValue = if s.ie then 1#32 else 0#32 := by
  cases h : s.ie <;> simp [State.ctrlValue, bit, h]

/-- No access of the host but a soft reset drops the command in flight (R127). -/
theorem HostEffect.inFlight {s t : State} {op : HostOp} (h : HostEffect s op t) (hs : softResets s.plat op = false)
    (hb : s.busy = true) : t.busy = true ∧ t.cmd = s.cmd := by
  cases h with
  | softReset hop => simp [hs] at hop
  | operand _ _ _ _ _ _ _ => exact ⟨hb, rfl⟩
  | other _ hkeep => exact hkeep.inFlight hb

/-- Settles O35: bit 1 of the word chooses between `softReset` and `setIe`, and the soft reset is the only access that ends a
command. -/
theorem controlRegisterAndSoftReset : Obligations.ControlRegisterAndSoftReset := by
  intro s d hl
  refine ⟨?_, fun hd => step_hostW_setIe hl hd, fun hd => ?_, fun op t hb hop h => ?_⟩
  · exact step_hostR_control hl (by decide) (by decide) (s.busRead_ctrl.trans s.ctrlValue_eq)
  · exact ⟨s.softReset.n, s.softReset.draws, Nat.mod_lt _ (by positivity), step_hostW_softReset hl hd⟩
  · rw [step_facing hl] at h
    refine (hostAccess_hostEffect h).inFlight (Bool.eq_false_iff.mpr fun hs => ?_) hb
    obtain ⟨v, hv, he⟩ := eq_write_of_softResets hs
    exact hop v hv he

/-! The bits of STATUS (R28). -/

theorem bit_lt_two (b : Bool) : bit b < 2 := by cases b <;> decide

theorem decide_bit_eq_one (b : Bool) : decide (bit b = 1) = b := by cases b <;> decide

/-- STATUS as a number: no carry into bit 8. -/
theorem State.statusValue_toNat (s : State) :
    s.statusValue.toNat = bit s.busy + bit s.done * 2 + bit s.mv * 4 + bit s.ovr * 8 + s.err.toNat * 16 := by
  have h0 := bit_lt_two s.busy
  have h1 := bit_lt_two s.done
  have h2 := bit_lt_two s.mv
  have h3 := bit_lt_two s.ovr
  have h4 := s.err.isLt
  rw [State.statusValue, BitVec.toNat_ofNat]
  omega

/-- A bit of a word that holds the flag `b`. -/
theorem getLsbD_eq_of_bit {x : Word} {k : Nat} {b : Bool} (h : x.toNat / 2 ^ k % 2 = bit b) : x.getLsbD k = b := by
  rw [BitVec.getLsbD, Nat.testBit_eq_decide_div_mod_eq, h, decide_bit_eq_one]

/-- Each field of STATUS in its bits, and 0 above (R28). -/
theorem State.statusValue_fields (s : State) :
    s.statusValue.getLsbD 0 = s.busy ∧ s.statusValue.getLsbD 1 = s.done ∧ s.statusValue.getLsbD 2 = s.mv ∧
    s.statusValue.getLsbD 3 = s.ovr ∧ s.statusValue.extractLsb' 4 4 = s.err ∧ s.statusValue.extractLsb' 8 24 = 0#24 := by
  have h0 := bit_lt_two s.busy
  have h1 := bit_lt_two s.done
  have h2 := bit_lt_two s.mv
  have h3 := bit_lt_two s.ovr
  have h4 := s.err.isLt
  have hx := s.statusValue_toNat
  refine ⟨getLsbD_eq_of_bit ?_, getLsbD_eq_of_bit ?_, getLsbD_eq_of_bit ?_, getLsbD_eq_of_bit ?_,
    BitVec.eq_of_toNat_eq ?_, BitVec.eq_of_toNat_eq ?_⟩
  · omega
  · omega
  · omega
  · omega
  · rw [BitVec.extractLsb'_toNat, Nat.shiftRight_eq_div_pow]; omega
  · rw [BitVec.extractLsb'_toNat, Nat.shiftRight_eq_div_pow, BitVec.toNat_ofNat]; omega

/-- A flag cleared by a bit of the word written (R28). -/
theorem and_not_eq_ite (b c : Bool) : (b && !c) = if c then false else b := by cases c <;> simp

/-- Settles O36, by the value of STATUS bit by bit. -/
theorem statusRegister : Obligations.StatusRegister := by
  intro s d hl
  refine ⟨⟨s.statusValue, step_hostR_control hl (by decide) (by decide) s.busRead_status, s.statusValue_fields⟩, ?_⟩
  rw [step_hostW_status hl d, ← and_not_eq_ite, ← and_not_eq_ite]
  rfl

/-! Reset and interrupt. -/

/-- After the reset event no register counts as written, since an operand has at least two words (R6, R21). -/
theorem State.hardReset_regWritten {s : State} (hl : s.plat.legal = true) (r : Reg) : s.hardReset.regWritten r = false := by
  obtain ⟨-, h2, -⟩ := Platform.opw_eq hl
  simp only [State.regWritten, State.hardReset_unwritten, Vector.getElem_replicate, List.isEmpty_eq_false_iff, ne_eq,
    List.range_eq_nil]
  omega

/-- Settles O47: the step is `hardReset`, whose free values are reduced to OPW bits. -/
theorem hardwareReset : Obligations.HardwareReset := by
  intro s hl
  refine ⟨_, step_facing_rst hl, rfl, rfl, rfl, rfl, rfl, rfl, rfl, rfl, rfl, rfl, rfl, Nat.mod_lt _ (by positivity),
    fun r => ⟨?_, State.hardReset_regWritten hl r⟩⟩
  rw [State.hardReset_readReg]
  exact Nat.mod_lt _ (by positivity)

/-- A completion sets DONE and leaves IE, with or without an error (R78, R117). -/
theorem completeCommand_irq (s : State) : ∃ t, completeCommand s = .next t ∧ t.done = true ∧ t.irq = s.ie := by
  obtain ⟨r, he, hw⟩ := completeCommand_completes s
  refine ⟨_, he, ?_⟩
  cases r with
  | error e => exact ⟨rfl, by simp [State.irq]⟩
  | ok u =>
    obtain ⟨i, -, hwrote⟩ := hw u rfl
    exact ⟨rfl, by simp [State.irq, hwrote.sameControl.ie]⟩

/-- Settles O49: each clause is the step's state, in which `irq` is read off IE and DONE. -/
theorem interruptOutput : Obligations.InterruptOutput := by
  intro s hl
  refine ⟨rfl, fun hb => ?_, fun d hd => ?_, fun w hb => ?_, fun w hb => ?_, fun d hd => ?_, ?_, fun d h1 h0 => ?_,
    fun d h1 h0 => ?_⟩
  · rw [step_facing_engine_busy hl hb]
    exact completeCommand_irq s
  · exact ⟨_, step_hostW_status hl d, by rw [State.irq, State.respond_done, State.statusWrite_done, hd]; simp⟩
  · exact ⟨_, step_hostCmd_idle hl hb w, by simp [State.irq]⟩
  · exact ⟨_, step_hostCmd_busy hl hb w, rfl⟩
  · exact ⟨_, step_hostW_softReset hl hd, rfl⟩
  · exact ⟨_, step_facing_rst hl, rfl⟩
  · exact ⟨_, step_hostW_setIe hl h1, rfl, by rw [State.irq, State.respond_ie, State.setIe_ie, h0]; rfl⟩
  · exact ⟨_, step_hostW_setIe hl h1, rfl, by rw [State.irq, State.respond_ie, State.setIe_ie, h0]; rfl⟩

theorem State.Inv.resetOn {p : Platform} (hp : p.legal = true) : (State.resetOn p).Inv := by
  refine ⟨hp, fun r => ?_, by simp [State.resetOn], nofun, nofun, Nat.zero_le 6, fun r w hw => ?_⟩
  · rw [State.resetOn_readReg]
    positivity
  · simpa [State.resetOn] using hw

/-- Settles O55: R9's platform is legal. -/
theorem resetInvariant : Obligations.ResetInvariant := State.Inv.resetOn (by decide)

end Sys2Proof.Machine
end

section
/-! PROOFS. Where the strict machine faults (R21, 93 U1): the registers a turn reads, from the command word and from the address
of an access. -/

namespace Sys2Proof.Machine

open Sys2Proof.Expect

/-! The operands of a decoded word, read off the word (R65, R70). -/

/-- A word that decodes is accepted by a row of the opcode map that builds the command (R72). -/
theorem exists_row_of_decode {w : Word} {i : Instr} (h : decode w = some i) :
    ∃ row ∈ opcodeMap, row.accepts w = true ∧ row.build w = i := by
  obtain ⟨row, hfind, hbuild⟩ := Option.map_eq_some_iff.mp h
  exact ⟨row, List.mem_of_find?_eq_some hfind, by simpa using List.find?_some hfind, hbuild⟩

/-- Every row of the map fixes the whole OP field (R70). -/
theorem mask_covers_op : ∀ row ∈ opcodeMap, row.mask &&& 0xFF#32 = 0xFF#32 := by decide

theorem op_eq_and (w : Word) : op w = (w &&& 0xFF#32).toNat :=
  (Nat.and_two_pow_sub_one_eq_mod w.toNat 8).symm

/-- An accepted word has its row's OP (R70). -/
theorem op_of_accepts {row : OpcodeRow} (hrow : row ∈ opcodeMap) {w : Word} (h : row.accepts w = true) :
    op w = op row.pattern := by
  have hmatch : w &&& row.mask = row.pattern := by simpa [OpcodeRow.accepts] using h
  rw [op_eq_and, op_eq_and, ← hmatch, BitVec.and_assoc, mask_covers_op row hrow]

/-- The opcode tells which fields of the word name source registers and whether the command needs the modulus, row by row
(R70, R108). -/
theorem sources_of_row : ∀ row ∈ opcodeMap, ∀ w, op w = op row.pattern →
    sourcesOf (row.build w) = operandFields w ∧ needsModulus (row.build w) = usesModulus w := by
  intro row hrow w hop
  rw [operandFields, usesModulus, hop]
  fin_cases hrow <;> exact ⟨rfl, rfl⟩

theorem sources_of_decode {w : Word} {i : Instr} (h : decode w = some i) :
    sourcesOf i = operandFields w ∧ needsModulus i = usesModulus w := by
  obtain ⟨row, hrow, haccepts, rfl⟩ := exists_row_of_decode h
  exact sources_of_row row hrow w (op_of_accepts hrow haccepts)

/-! What each turn reads. -/

theorem turnReads_engine {s u : State} (h : u = facing .engine s ∨ (s.agenda = [] ∧ u = s)) :
    u.turnReads = s.engineReads := by
  rcases h with rfl | ⟨ha, rfl⟩
  · rfl
  · simp [State.turnReads, ha]

/-- The engine reads an operand field of the command in flight, where the word decodes and MV lets the command read (R72,
R110). -/
theorem mem_engineReads_iff (s : State) (r : Reg) : r ∈ s.engineReads ↔
    s.busy = true ∧ decode s.cmd ≠ none ∧ (usesModulus s.cmd = true → s.mv = true) ∧ r ∈ operandFields s.cmd := by
  cases hb : s.busy with
  | false => simp [State.engineReads, hb]
  | true =>
    rw [State.engineReads, if_pos hb]
    cases hi : decode s.cmd with
    | none => simp [State.completionReads, hi]
    | some i =>
      obtain ⟨hsrc, hneeds⟩ := sources_of_decode hi
      by_cases hmod : needsModulus i = true → s.mv = true
      · rw [completionReads_of_decode hi hmod, hsrc, ← hneeds]
        exact ⟨fun hr => ⟨rfl, nofun, hmod, hr⟩, fun ⟨_, _, _, hr⟩ => hr⟩
      · obtain ⟨hneed, hmv⟩ : needsModulus i = true ∧ s.mv = false := by simpa using hmod
        simp [State.completionReads, hi, ← hneeds, hneed, hmv]

/-- An idle host's read of word `w < NW` of `Vr` reads `Vr` (R21, R40). -/
theorem accessReads_operand {s : State} (hl : s.plat.legal = true) (hb : s.busy = false) (r : Reg) {w : Nat}
    (hw : w < s.plat.nw) : s.accessReads (.read (addrOf s.plat (operandOffset r w)) .word) = [r] := by
  obtain ⟨-, -, h128⟩ := Platform.opw_eq hl
  have hw128 : w < 128 := by omega
  obtain ⟨-, -, -, hlt, h4⟩ := operandOffset_fields r hw128
  simp only [State.accessReads, select_word s.plat hlt h4]
  exact busReads_operand r hb hw hw128

/-- A host read that reads a register is an idle host's 32-bit read of one of its words (R40, R51). -/
theorem of_mem_accessReads {s : State} {addr : Nat} {width : Width} {r : Reg} (h : r ∈ s.accessReads (.read addr width)) :
    s.busy = false ∧ ∃ w < s.plat.nw, width = .word ∧ addr = addrOf s.plat (operandOffset r w) := by
  simp only [State.accessReads] at h
  cases hsel : select s.plat addr width with
  | outside => simp [hsel] at h
  | busError off => simp [hsel] at h
  | hit off =>
    obtain ⟨rfl, h4, rfl⟩ := select_hit hsel
    simp only [hsel, State.busReads, State.isOperandWord, List.mem_ite_nil_right, List.mem_singleton, Bool.and_eq_true,
      decide_eq_true_eq, Bool.not_eq_true'] at h
    obtain ⟨⟨⟨hin, hw⟩, hb⟩, rfl⟩ := h
    exact ⟨hb, _, hw, rfl, by rw [← eq_operandOffset hin h4]⟩

/-! The strict machine, turn by turn. -/

theorem regWritten_false_iff (s : State) (r : Reg) : s.regWritten r = false ↔ s.unwritten[r.val] ≠ [] := by
  rw [← Bool.not_eq_true, regWritten_iff]

theorem strictStep_of_reads_nothing {s : State} (h : s.turnReads = []) : strictStep s = step s :=
  strictStep_of_written (by simp [h])

/-- An idle host's read of an operand word faults exactly where the register has an unwritten word (R21). -/
theorem strictStep_hostR_operand {s : State} (hl : s.plat.legal = true) (hb : s.busy = false) (r : Reg) {w : Nat}
    (hw : w < s.plat.nw) :
    (s.unwritten[r.val] ≠ [] →
      strictStep (facing (hostR s.plat (operandOffset r w)) s) = .fault (.unwrittenRead r)) ∧
    (s.unwritten[r.val] = [] →
      strictStep (facing (hostR s.plat (operandOffset r w)) s) = step (facing (hostR s.plat (operandOffset r w)) s)) := by
  have hreads : (facing (hostR s.plat (operandOffset r w)) s).turnReads = [r] := accessReads_operand hl hb r hw
  refine ⟨fun hr => ?_, fun hr => strictStep_of_written fun r' hr' => ?_⟩
  · obtain ⟨r', hr', -, hfault⟩ := strictStep_of_unwritten (s := facing (hostR s.plat (operandOffset r w)) s) hl
      ⟨r, by simp [hreads], (regWritten_false_iff s r).mpr hr⟩
    obtain rfl : r' = r := by simpa [hreads] using hr'
    exact hfault
  · obtain rfl : r' = r := by simpa [hreads] using hr'
    exact (regWritten_iff s r').mpr hr

/-- The engine's turn on a command that reads its operands faults where one has an unwritten word (R21). -/
theorem strictStep_engine_unwritten {s u : State} (hl : s.plat.legal = true)
    (hu : u = facing .engine s ∨ (s.agenda = [] ∧ u = s)) (hr : ∃ r ∈ s.engineReads, s.unwritten[r.val] ≠ []) :
    ∃ r ∈ s.engineReads, s.unwritten[r.val] ≠ [] ∧ strictStep u = .fault (.unwrittenRead r) := by
  have hreads := turnReads_engine hu
  have hunw : u.unwritten = s.unwritten := by rcases hu with rfl | ⟨-, rfl⟩ <;> rfl
  have hlu : u.plat.legal = true := by rcases hu with rfl | ⟨-, rfl⟩ <;> exact hl
  simp only [← hreads, ← hunw, ← regWritten_false_iff] at hr ⊢
  exact strictStep_of_unwritten hlu hr

/-- The engine's turn is `step`'s where every operand it reads is written whole (R21). -/
theorem strictStep_engine_written {s u : State} (hu : u = facing .engine s ∨ (s.agenda = [] ∧ u = s))
    (hr : ∀ r ∈ s.engineReads, s.unwritten[r.val] = []) : strictStep u = step u := by
  have hunw : u.unwritten = s.unwritten := by rcases hu with rfl | ⟨-, rfl⟩ <;> rfl
  refine strictStep_of_written fun r hread => ?_
  rw [turnReads_engine hu] at hread
  rw [regWritten_iff, hunw]
  exact hr r hread

/-- Settles O59: `strictStep` faults by the registers the turn reads, and those are read off the address of the access and off the
command word. -/
theorem strictMachineFaults : Obligations.StrictMachineFaults := by
  intro s
  refine ⟨strictStep_of_excluded, fun hl => ⟨fun r w hb hw => strictStep_hostR_operand hl hb r hw, fun addr width h => ?_,
    fun addr width d => strictStep_of_reads_nothing rfl, fun addr => strictStep_of_reads_nothing rfl,
    strictStep_of_reads_nothing rfl, fun u hu => ⟨fun hb hd hm hr => ?_, fun h => ?_⟩, fun r w d hb hw => ?_⟩⟩
  · refine strictStep_of_written fun r hr => ?_
    obtain ⟨hb, w, hw, hwidth, haddr⟩ := of_mem_accessReads (s := s) hr
    rcases h with hbusy | hnone
    · simp [hb] at hbusy
    · exact absurd ⟨hwidth, haddr⟩ (hnone r w hw)
  · have hreads : ∀ r, r ∈ s.engineReads ↔ r ∈ operandFields s.cmd := fun r =>
      (mem_engineReads_iff s r).trans ⟨fun ⟨_, _, _, hfield⟩ => hfield, fun hfield => ⟨hb, hd, hm, hfield⟩⟩
    simp only [← hreads] at hr ⊢
    exact strictStep_engine_unwritten hl hu hr
  · refine strictStep_engine_written hu fun r hr => ?_
    obtain ⟨hb, hd, hm, hfield⟩ := (mem_engineReads_iff s r).mp hr
    rcases h with hidle | hnone | ⟨huses, hmv⟩ | hall
    · simp [hb] at hidle
    · exact absurd hnone hd
    · simp [hm huses] at hmv
    · exact hall r hfield
  · refine ⟨_, step_hostW_operand hl hb r hw d, fun k => ?_, fun r' hr' => ?_⟩
    · rw [State.respond_unwritten, State.unwritten_writeRegWord, if_pos rfl]
      simp
    · rw [State.respond_unwritten, State.unwritten_writeRegWord, if_neg hr']

end Sys2Proof.Machine
end

section
/-! PROOFS. The bus (20_memory.md): which accesses reach the block (R38, R43, R61), the operand window by its words (R40, R51),
and the reserved offsets (R41). -/

namespace Sys2Proof.Machine

open Sys2Proof.Expect

/-! Which accesses reach the block. -/

theorem inWindow_iff (p : Platform) (addr : Nat) :
    inWindow p addr = true ↔ p.base ≤ addr ∧ addr < p.base + 0x2000 := by
  simp [inWindow, Config.windowSize]

/-- An access in the window that is not a 32-bit access at a multiple of 4 gets a bus error (R43). -/
theorem select_busError (p : Platform) {off : Nat} {width : Width} (hlt : off < 0x2000) (h : width ≠ .word ∨ off % 4 ≠ 0) :
    select p (addrOf p off) width = .busError (BitVec.ofNat 13 off) := by
  have hin : inWindow p (addrOf p off) = true := by
    rw [inWindow_iff, addrOf]
    omega
  have hoff : offsetOf p (addrOf p off) = BitVec.ofNat 13 off := by simp [offsetOf, addrOf]
  have hmod : (BitVec.ofNat 13 off).toNat % 4 = off % 4 := by
    rw [BitVec.toNat_ofNat]
    omega
  rw [select, if_pos hin, hoff, hmod, if_neg]
  rintro ⟨hword, h4⟩
  exact h.elim (absurd hword) (absurd h4)

theorem select_outside {p : Platform} {addr : Nat} (h : inWindow p addr = false) (width : Width) :
    select p addr width = .outside := by
  simp [select, h]

/-- Settles O44: an access that is no hit faults before it reads or writes anything (the model has a `busErrors` already). -/
theorem busErrorsAreFaults : Obligations.BusErrors := by
  intro s off width d hl hlt h
  have hsel := select_busError s.plat hlt h
  rw [step_facing hl, step_facing hl]
  simp only [addrOf] at hsel
  simp only [takeTurn, hostAccess, hsel, and_self]

/-- Settles O45: the window is `[BASE, BASE + 0x2000)`, and only an access inside it reaches the block. -/
theorem fetchesAndOutsideAccesses : Obligations.FetchesAndOutsideAccesses := by
  intro s addr width d hl
  simp only [step_facing hl, takeTurn, hostAccess]
  refine ⟨fun hlo hhi => ?_, fun h => ?_⟩
  · rw [if_pos ((inWindow_iff _ _).mpr ⟨hlo, hhi⟩), offsetOf]
  · have hout : inWindow s.plat addr = false := by
      rw [← Bool.not_eq_true, inWindow_iff]
      omega
    simp only [select_outside hout, hout, Bool.false_eq_true, if_false]
    exact ⟨rfl, rfl, rfl⟩

/-- Settles O46: only device memory is legal, and `step` refuses every other platform. -/
theorem cacheablePlatformIsRefused : Obligations.CacheablePlatformIsRefused := by
  intro s hmap
  refine if_neg fun hl => ?_
  obtain ⟨-, -, -, -, hdev⟩ := (Platform.legal_iff s.plat).mp hl
  exact hmap hdev

/-! Reads and writes of the operand window, by the word they address. -/

/-- An operand has at most the 128 words that its part of the window has room for (R4, R40). -/
theorem Platform.word_lt {p : Platform} (hl : p.legal = true) {w : Nat} (hw : w < p.nw) : w < 128 := by
  obtain ⟨-, -, h128⟩ := Platform.opw_eq hl
  omega

/-- Only a read of a word `w < NW` while busy is free (R51). -/
theorem State.readIsFree_operand (s : State) (r : Reg) {w : Nat} (hw : w < 128) :
    s.readIsFree (BitVec.ofNat 13 (operandOffset r w)) = (decide (w < s.plat.nw) && s.busy) := by
  obtain ⟨hin, -, hword, -⟩ := operandOffset_fields r hw
  simp only [State.readIsFree, State.isOperandWord, hin, hword, Bool.true_and]

/-- A read that is not free answers its value and draws nothing. -/
theorem State.hostRead_of_not_free {s : State} {off : Offset} (h : s.readIsFree off = false) :
    s.hostRead off = s.respond (.data (s.busRead off)) := by
  simp [State.hostRead, h]

theorem step_hostR_operand_idle {s : State} (hl : s.plat.legal = true) (hb : s.busy = false) (r : Reg) {w : Nat}
    (hw : w < s.plat.nw) :
    step (facing (hostR s.plat (operandOffset r w)) s) = .next (s.respond (.data (operandWord (s.readReg r) w))) := by
  have hw128 := Platform.word_lt hl hw
  obtain ⟨-, -, -, hlt, h4⟩ := operandOffset_fields r hw128
  rw [step_hostR hl hlt h4, State.hostRead_of_not_free (by simp [s.readIsFree_operand r hw128, hb]), busRead_operand s r hw128]
  simp [hw, hb]

/-- Settles O42: the read is free, so it answers the next free value and counts the draw. -/
theorem busyOperandReadIsFree : Obligations.BusyOperandReadIsFree := by
  intro s r w hl hb hw
  have hw128 := Platform.word_lt hl hw
  obtain ⟨-, -, -, hlt, h4⟩ := operandOffset_fields r hw128
  have hfree := s.readIsFree_operand r hw128
  rw [step_hostR hl hlt h4, State.hostRead, if_pos (by simp [hfree, hw, hb]), busRead_operand s r hw128, if_pos hw, if_pos hb]
  rfl

/-- Settles O38: word `w` of the operand is its slice, and `setOperandWord` replaces exactly those bits. -/
theorem operandWindow : Obligations.OperandWindow := by
  intro s r w d hl hb hw
  refine ⟨?_, _, step_hostW_operand hl hb r hw d, fun j => ?_, fun r' hr' => ?_, rfl⟩
  · rw [← operandWord_eq]
    exact step_hostR_operand_idle hl hb r hw
  · rw [State.respond_readReg, State.readReg_writeRegWord, if_pos rfl, setOperandWord_testBit]
    rcases lt_or_ge j (32 * w) with hlo | hlo
    · rw [if_pos hlo, if_neg (by omega)]
    · rw [if_neg (by omega)]
      exact if_congr (by omega) rfl rfl
  · rw [State.respond_readReg, State.readReg_writeRegWord, if_neg hr']

/-- The write of a word of the operand window while busy is refused, a reserved word included (R41, R50). -/
theorem step_hostW_operand_busy {s : State} (hl : s.plat.legal = true) (hb : s.busy = true) (r : Reg) {w : Nat} (hw : w < 128)
    (d : Word) : step (facing (hostW s.plat (operandOffset r w) d) s) = .next (s.refuseAccess.respond .ack) := by
  obtain ⟨-, -, -, hlt, h4⟩ := operandOffset_fields r hw
  rw [step_hostW hl d hlt h4, State.hostWrite, busWrite_operand s r d hw, if_pos hb]

/-! The reserved offsets. -/

theorem State.busRead_reserved (s : State) {off : Nat} (hlo : 0x018 ≤ off) (hhi : off < 0x1000) :
    s.busRead (BitVec.ofNat 13 off) = 0#32 := by
  have hne : ∀ k, k < 0x018 → BitVec.ofNat 13 off ≠ BitVec.ofNat 13 k := fun k hk =>
    offset_ne (by omega) (by omega) (by omega)
  simp [State.busRead, hne, inOperandWindow_of_control hhi]

theorem State.busWrite_reserved (s : State) (d : Word) {off : Nat} (hlo : 0x018 ≤ off) (hhi : off < 0x1000) :
    s.busWrite (BitVec.ofNat 13 off) d = s := by
  have hne : ∀ k, k < 0x018 → BitVec.ofNat 13 off ≠ BitVec.ofNat 13 k := fun k hk =>
    offset_ne (by omega) (by omega) (by omega)
  simp [State.busWrite, hne, inOperandWindow_of_control hhi]

/-- Settles O37: no arm of `busRead` or `busWrite` names a reserved offset, and the operand window's arm asks
`w < NW` after BUSY. -/
theorem reservedOffsets : Obligations.ReservedOffsets := by
  intro s d hl
  refine ⟨fun off hlo hhi h4 => ⟨?_, ?_⟩, fun r w hnw hw => ?_⟩
  · exact step_hostR_control hl (by omega) h4 (s.busRead_reserved hlo (by omega))
  · exact step_hostW_ignored hl d (by omega) h4 (s.busWrite_reserved d hlo (by omega))
  · have hw128 : w < 128 := by omega
    have hres : ¬ w < s.plat.nw := by omega
    obtain ⟨-, -, -, hlt, h4⟩ := operandOffset_fields r hw128
    refine ⟨?_, fun hb => ?_, fun hb => step_hostW_operand_busy hl hb r hw128 d⟩
    · rw [step_hostR hl hlt h4, State.hostRead_of_not_free (by simp [s.readIsFree_operand r hw128, hres]),
        busRead_operand s r hw128, if_neg hres]
      rfl
    · exact step_hostW_ignored hl d hlt h4 (by simp [busWrite_operand s r d hw128, hb, hres])

end Sys2Proof.Machine
end

section
/-! PROOFS. What a host's access leaves alone: reads change nothing (R48, R53), the command in flight is out of the host's reach
(R50, R60), and OVR is sticky (R130). -/

namespace Sys2Proof.Machine

open Sys2Proof.Expect

/-! Reads. -/

theorem hostAccess_read_cases {s t : State} {addr : Nat} {width : Width} (h : hostAccess (.read addr width) s = .next t) :
    (∃ off, select s.plat addr width = .hit off ∧ t = s.hostRead off) ∨
    (select s.plat addr width = .outside ∧ t = s.respond .notSelected) := by
  simp only [hostAccess] at h
  split at h
  · next off hsel => cases h; exact .inl ⟨off, hsel, rfl⟩
  · cases h
  · next hsel => cases h; exact .inr ⟨hsel, rfl⟩

/-- A read of an idle block is never free (R51). -/
theorem State.hostRead_idle {s : State} (hb : s.busy = false) (off : Offset) :
    s.hostRead off = s.respond (.data (s.busRead off)) :=
  State.hostRead_of_not_free (by simp [State.readIsFree, hb])

/-- The answer of an earlier access decides nothing about a read. -/
theorem State.busRead_respond (s : State) (a : Response) (off : Offset) : (s.respond a).busRead off = s.busRead off := rfl

theorem State.hostRead_block (s : State) (off : Offset) :
    { s.hostRead off with resp := s.resp, draws := s.draws } = s := by
  unfold State.hostRead
  split <;> rfl

theorem State.hostRead_hostRead_idle {s : State} (hb : s.busy = false) (off : Offset) :
    (s.hostRead off).hostRead off = s.hostRead off := by
  rw [State.hostRead_idle hb, State.hostRead_idle (s := s.respond (.data (s.busRead off))) hb, State.busRead_respond]
  rfl

/-- Settles O41: a read answers, and may draw a free value; while idle it draws none, so the second read gives the same state. -/
theorem readsHaveNoSideEffects : Obligations.ReadsHaveNoSideEffects := by
  intro s t addr width h
  have hl : s.plat.legal = true := (step_effect h).1
  rw [step_facing hl] at h
  rcases hostAccess_read_cases h with ⟨off, hsel, rfl⟩ | ⟨hsel, rfl⟩
  · refine ⟨s.hostRead_block off, fun hb => ?_⟩
    have hplat : (s.hostRead off).plat = s.plat := by rw [State.hostRead_idle hb]; rfl
    rw [step_facing (hplat ▸ hl), takeTurn, hostAccess, hplat, hsel]
    exact congrArg _ (State.hostRead_hostRead_idle hb off)
  · refine ⟨rfl, fun _ => ?_⟩
    rw [step_facing (s := s.respond .notSelected) hl, takeTurn, hostAccess, State.respond_plat, hsel]
    rfl

/-! The command in flight. -/

/-- Settles O53: of the accesses of a busy block, only a soft reset changes more than the flags and the answer, and it keeps the
operand registers. -/
theorem hostLeavesTheCommandAlone : Obligations.HostLeavesTheCommandAlone := by
  intro s t op hb h
  have hl : s.plat.legal = true := (step_effect h).1
  rw [step_facing hl] at h
  cases hostAccess_hostEffect h with
  | softReset hop => exact ⟨fun _ => rfl, fun hs => by simp [hs] at hop⟩
  | operand hidle => simp [hb] at hidle
  | other _ hkeep =>
    obtain ⟨hbusy, hcmd⟩ := hkeep.inFlight hb
    exact ⟨fun r => by rw [State.readReg, hkeep.v, State.readReg], fun _ => ⟨hkeep.n, hkeep.mv, hcmd, hbusy, hkeep.cmdcnt⟩⟩

/-! OVR. -/

/-- OVR falls by a soft reset or by a write of 1 to bit 3 of STATUS (R28, R126, R130). -/
theorem State.busWrite_keeps_ovr {s : State} {off : Offset} {d : Word} (ho : s.ovr = true)
    (hctrl : off = 0x008#13 → d.getLsbD 1 = false) (hstatus : off = 0x00C#13 → d.getLsbD 3 = false) :
    (s.busWrite off d).ovr = true := by
  unfold State.busWrite
  split
  · next hoff => rw [s.ctrlWrite_setIe (hctrl hoff)]; exact ho
  · split
    · next hoff => rw [State.statusWrite_ovr, ho, hstatus hoff]; rfl
    · split
      · cases hb : s.busy with
        | true => rw [State.cmdWrite_busy hb]; rfl
        | false => rw [State.cmdWrite_idle hb]; exact ho
      · split
        · cases hb : s.busy with
          | true => rw [State.operandWrite_busy hb]; rfl
          | false => rw [State.operandWrite_idle hb]; split <;> exact ho
        · exact ho

theorem hostAccess_keeps_ovr {op : HostOp} {s t : State} (h : hostAccess op s = .next t) (ho : s.ovr = true)
    (hreset : softResets s.plat op = false)
    (hclear : ∀ d : Word, d.getLsbD 3 = true → op ≠ .write (addrOf s.plat 0x00C) .word d) : t.ovr = true := by
  cases op with
  | read addr width =>
    rcases hostAccess_read_cases h with ⟨off, -, rfl⟩ | ⟨-, rfl⟩
    · unfold State.hostRead
      split <;> exact ho
    · exact ho
  | fetch addr =>
    simp only [hostAccess] at h
    split at h
    · cases h
    · cases h; exact ho
  | write addr width d =>
    simp only [hostAccess] at h
    split at h
    · next off hsel =>
      cases h
      refine State.busWrite_keeps_ovr ho (fun hoff => ?_) (fun hoff => ?_)
      · simpa [softResets_write hsel, hoff] using hreset
      · obtain ⟨rfl, -, rfl⟩ := select_hit hsel
        exact Bool.eq_false_iff.mpr fun hd => hclear d hd (by rw [hoff]; rfl)
    · cases h
    · cases h; exact ho

/-- R130: OVR is sticky over every step. -/
theorem step_keeps_ovr {s t : State} (h : step s = .next t) (ho : s.ovr = true) (hreset : resetsNext s = false)
    (hclear : ¬ clearsOverrunNext s) : t.ovr = true := by
  cases step_taken h with
  | completed _ _ rest r hw =>
    cases r with
    | error e => exact ho
    | ok u =>
      obtain ⟨i, -, hwrote⟩ := hw u rfl
      rw [State.complete_ok, State.finish_ovr, hwrote.sameControl.ovr]
      exact ho
  | idle => exact ho
  | rst ha => simp [resetsNext_rst ha] at hreset
  | @host op rest ha =>
    rw [step_of_legal (step_effect h).1, nextTurn_cons ha] at h
    rw [resetsNext_host ha] at hreset
    exact hostAccess_keeps_ovr h ho hreset fun d hd hop => hclear ⟨d, rest, hd, by rw [ha, hop]; rfl⟩

/-- Every aligned offset of the operand window is that of a word of a register (R39, R40). -/
theorem exists_operandOffset {off : Nat} (hlo : 0x1000 ≤ off) (hhi : off ≤ 0x1FFC) (h4 : off % 4 = 0) :
    ∃ (r : Reg) (w : Nat), w < 128 ∧ off = operandOffset r w := by
  refine ⟨⟨(off - 0x1000) / 0x200, by omega⟩, off % 0x200 / 4, by omega, ?_⟩
  simp only [operandOffset]
  omega

/-- Settles O43: BUSY refuses the writes of `CMD` and of the operand window, and `step_keeps_ovr` is the stickiness. -/
theorem refusedAccesses : Obligations.RefusedAccesses := by
  refine ⟨fun s d off hl hb hoff => ?_, fun s d hl _ => ⟨?_, ?_⟩, fun s t => step_keeps_ovr⟩
  · rcases hoff with rfl | ⟨hlo, hhi, h4⟩
    · exact step_hostCmd_busy hl hb d
    · obtain ⟨r, w, hw, rfl⟩ := exists_operandOffset hlo hhi h4
      exact step_hostW_operand_busy hl hb r hw d
  · cases hd : d.getLsbD 1 with
    | true => exact ⟨_, step_hostW_softReset hl hd, nofun⟩
    | false => exact ⟨_, step_hostW_setIe hl hd, fun _ => rfl⟩
  · exact ⟨_, step_hostW_status hl d, fun hd => by rw [State.respond_ovr, State.statusWrite_ovr, hd]; simp⟩

end Sys2Proof.Machine
end

section
/-! PROOFS. The spec's example of word and byte order (R46, R47). -/

namespace Sys2Proof.Machine

open Sys2Proof.Expect

/-- Word writes below OPW leave an operand (R4, R40). -/
theorem State.hostWriteWords_readReg_lt {s : State} {r : Reg} {opw : Nat} (value : Nat) {ws : List Nat}
    (hx : s.readReg r < 2 ^ opw) (hws : ∀ w ∈ ws, 32 * w + 32 ≤ opw) :
    (s.hostWriteWords r value ws).readReg r < 2 ^ opw := by
  induction ws generalizing s with
  | nil => exact hx
  | cons w ws ih =>
    obtain ⟨hw, hrest⟩ := List.forall_mem_cons.mp hws
    refine ih (s := s.hostWriteWord r value w) ?_ hrest
    rw [State.hostWriteWord_readReg, if_pos rfl]
    exact setOperandWord_lt _ hx hw

/-- An operand of 64 bits is its two words, so writing both writes the value (R45). -/
theorem State.readReg_hostWriteWords_two {s : State} {r : Reg} {value : Nat} (hx : s.readReg r < 2 ^ 64)
    (hv : value < 2 ^ 64) : (s.hostWriteWords r value [0, 1]).readReg r = value := by
  refine eq_of_operandWord_eq (nw := 2) (State.hostWriteWords_readReg_lt value hx (by decide)) hv fun w hw => ?_
  rw [State.operandWord_hostWriteWords, if_pos]
  interval_cases w <;> decide

/-- Settles O39: the two writes are those of 3233's words, and each word is read back as its four bytes. -/
theorem littleEndianExample : Obligations.LittleEndianExample := by
  intro s hl hopw hb hx
  have hnw : s.plat.nw = 2 := by rw [Platform.nw, hopw]
  have hrun := run_hostWriteWords hl hb 0 3233 (ws := [0, 1]) (by simp [hnw])
  have hval := s.readReg_hostWriteWords_two (value := 3233) hx (by decide)
  have hread : ∀ w < 2, step (facing (hostR s.plat (operandOffset 0 w)) (s.hostWriteWords 0 3233 [0, 1])) =
      .next ((s.hostWriteWords 0 3233 [0, 1]).respond (.data (operandWord 3233 w))) := fun w hw => by
    have h := step_hostR_operand_idle (s := s.hostWriteWords 0 3233 [0, 1]) hl hb 0 (hw.trans_eq hnw.symm)
    rwa [hval] at h
  exact ⟨_, _, _, _, hrun, hval, hread 0 (by decide), by decide, hread 1 (by decide), rfl, by decide⟩

end Sys2Proof.Machine
end

section
/-! PROOFS. The races of the host with a completion (R57, R118): a completion commutes with what a busy host's access changes. -/

namespace Sys2Proof.Machine

open Sys2Proof.Expect

/-- The state with other values in the fields that no completion reads or writes: OVR, the turns to come, the last answer. -/
def State.withHostSide (s : State) (ovr : Bool) (agenda : List Turn) (resp : Response) : State :=
  { s with ovr := ovr, agenda := agenda, resp := resp }

theorem SameExecute.complete_withHostSide {i : Instr} {s : State} {ovr : Bool} {agenda : List Turn} {resp : Response}
    {a b : Except CmdError State} (h : SameExecute i s (s.withHostSide ovr agenda resp) a b) :
    (s.withHostSide ovr agenda resp).complete b = (s.complete a).withHostSide ovr agenda resp := by
  cases h with
  | error e => rfl
  | nothing _ => rfl
  | write _ x => rfl
  | load _ m => rfl

/-- A completion goes the same way whatever the host's side of the state holds. -/
theorem completeCommand_withHostSide {s u : State} (h : completeCommand s = .next u) (ovr : Bool) (agenda : List Turn)
    (resp : Response) :
    completeCommand (s.withHostSide ovr agenda resp) = .next (u.withHostSide ovr agenda resp) := by
  cases hi : decode s.cmd with
  | none =>
    simp only [completeCommand, hi] at h
    cases h
    simp only [completeCommand, show decode (s.withHostSide ovr agenda resp).cmd = none from hi]
    rfl
  | some i =>
    obtain ⟨a, b, hs, ht, hab⟩ := exec_sameExecute (i := i) (s := s) (t := s.withHostSide ovr agenda resp)
      ⟨rfl, fun _ => rfl, rfl, fun _ _ _ => rfl⟩
    rw [completeCommand_of_decode hi, hs] at h
    cases h
    rw [completeCommand_of_decode (s := s.withHostSide ovr agenda resp) hi, ht, hab.complete_withHostSide]

/-- What every completion leaves, with or without an error (R78, R105). -/
structure Completed (s u : State) : Prop where
  busy : u.busy = false
  done : u.done = true
  cmdcnt : u.cmdcnt = s.cmdcnt + 1#32
  cmd : u.cmd = s.cmd
  ovr : u.ovr = s.ovr
  plat : u.plat = s.plat
  agenda : u.agenda = s.agenda
  resp : u.resp = s.resp

theorem completeCommand_completed (s : State) : ∃ u, completeCommand s = .next u ∧ Completed s u := by
  obtain ⟨r, he, hw⟩ := completeCommand_completes s
  refine ⟨_, he, ?_⟩
  cases r with
  | error e => exact ⟨rfl, rfl, rfl, rfl, rfl, rfl, rfl, rfl⟩
  | ok t =>
    obtain ⟨i, -, hwrote⟩ := hw t rfl
    have hc := hwrote.sameControl
    exact ⟨rfl, rfl, by rw [State.complete_ok, State.finish_cmdcnt, hc.cmdcnt], hc.cmd, hc.ovr, hc.plat, hc.agenda,
      hc.resp⟩

theorem run_two {s t u : State} (hs : step s = .next t) (ht : step t = .next u) : Host.Core.run core 2 s = .next u :=
  (run_succ_of_step hs 1).trans (run_succ_of_step ht 0)

/-- The engine's turn first: the completion, and the turn `t` still to come. -/
theorem step_engine_before {s u : State} (hl : s.plat.legal = true) (hb : s.busy = true) (h : completeCommand s = .next u)
    (hu : Completed s u) (t : Turn) : step (facing .engine (facing t s)) = .next (facing t u) := by
  have hfacing : u.withHostSide s.ovr (t :: s.agenda) s.resp = facing t u := by
    rw [← hu.ovr, ← hu.agenda, ← hu.resp]
    rfl
  rw [step_facing_engine_busy (s := facing t s) hl hb, ← hfacing]
  exact completeCommand_withHostSide h s.ovr (t :: s.agenda) s.resp

/-- The engine's turn after an access that set OVR to `ovr` and answered `a`: the same completion. -/
theorem step_engine_after {s u : State} (hl : s.plat.legal = true) (hb : s.busy = true) (h : completeCommand s = .next u)
    (ovr : Bool) (a : Response) :
    step (facing .engine (s.withHostSide ovr s.agenda a)) = .next (u.withHostSide ovr s.agenda a) := by
  rw [step_facing_engine_busy (s := s.withHostSide ovr s.agenda a) hl hb]
  exact completeCommand_withHostSide h ovr s.agenda a

theorem step_hostPoll {s : State} (hl : s.plat.legal = true) :
    step (facing (hostPoll s.plat) s) = .next (s.respond (.data s.statusValue)) :=
  step_hostR_control hl (by decide) (by decide) s.busRead_status

/-- A STATUS read before and after the completion: the same completion, and the answers of before and of after (R57, R118). -/
theorem statusRead_raced_by_completion {s u : State} (hl : s.plat.legal = true) (hb : s.busy = true)
    (h : completeCommand s = .next u) (hu : Completed s u) :
    Host.Core.run core 2 (facing (hostPoll s.plat) (facing .engine s)) =
      .next (u.withHostSide u.ovr u.agenda (.data s.statusValue)) ∧
    Host.Core.run core 2 (facing .engine (facing (hostPoll s.plat) s)) = .next (u.respond (.data u.statusValue)) := by
  have hlu : u.plat.legal = true := hu.plat ▸ hl
  refine ⟨?_, run_two (step_engine_before hl hb h hu _) (hu.plat ▸ step_hostPoll hlu)⟩
  rw [hu.ovr, hu.agenda]
  exact run_two (step_hostPoll (s := facing .engine s) hl) (step_engine_after hl hb h s.ovr (.data s.statusValue))

/-- A CMD write before and after the completion: refused with OVR, and accepted (R118). -/
theorem cmdWrite_raced_by_completion {s u : State} (hl : s.plat.legal = true) (hb : s.busy = true)
    (h : completeCommand s = .next u) (hu : Completed s u) (w : Word) :
    Host.Core.run core 2 (facing (hostCmd s.plat w) (facing .engine s)) = .next (u.withHostSide true u.agenda .ack) ∧
    Host.Core.run core 2 (facing .engine (facing (hostCmd s.plat w) s)) = .next ((u.accept w).respond .ack) := by
  have hlu : u.plat.legal = true := hu.plat ▸ hl
  refine ⟨?_, run_two (step_engine_before hl hb h hu _) (hu.plat ▸ step_hostCmd_idle hlu hu.busy w)⟩
  rw [hu.agenda]
  exact run_two (step_hostCmd_busy (s := facing .engine s) hl hb w) (step_engine_after hl hb h true .ack)

/-- Settles O58: both orders of the read are the one completion with another answer, and the write is refused by the BUSY before
it or accepted by the BUSY after it. -/
theorem racesAreOrdered : Obligations.RacesAreOrdered := by
  intro s w hinv hb
  have hl := hinv.legal
  obtain ⟨-, -, -, -, hbusy, -⟩ := hinv
  obtain ⟨hdone, -⟩ := hbusy hb
  obtain ⟨u, h, hu⟩ := completeCommand_completed s
  obtain ⟨hpoll, hpoll'⟩ := statusRead_raced_by_completion hl hb h hu
  obtain ⟨hcmd, hcmd'⟩ := cmdWrite_raced_by_completion hl hb h hu w
  obtain ⟨hx0, hx1, -⟩ := s.statusValue_fields
  obtain ⟨hy0, hy1, -⟩ := u.statusValue_fields
  refine ⟨⟨_, _, _, _, hpoll, hpoll', rfl, rfl, rfl, ?_⟩, ⟨_, hcmd, rfl, hu.busy, hu.cmd, hu.cmdcnt⟩,
    ⟨_, hcmd', hu.ovr, rfl, rfl, hu.cmdcnt⟩⟩
  exact ⟨hx0.trans hb, hx1.trans hdone, hy0.trans hu.busy, hy1.trans hu.done⟩

end Sys2Proof.Machine
end

section
/-! PROOFS. The opcode map (R70, R72): no word has two rows, so the decoder finds the row that accepts it. -/

namespace Sys2Proof.Machine

open Sys2Proof.Expect

theorem accepts_iff (row : OpcodeRow) (w : Word) : row.accepts w = true ↔ w &&& row.mask = row.pattern := beq_iff_eq

/-- Two rows fix some common bit differently, so no word has both (R70). -/
def RowsDisjoint (r r' : OpcodeRow) : Prop := r.pattern &&& r'.mask ≠ r'.pattern &&& r.mask

theorem RowsDisjoint.not_both {r r' : OpcodeRow} (h : RowsDisjoint r r') {w : Word} (hr : r.accepts w = true)
    (hr' : r'.accepts w = true) : False := by
  refine h ?_
  rw [← (accepts_iff r w).mp hr, ← (accepts_iff r' w).mp hr', BitVec.and_assoc, BitVec.and_assoc, BitVec.and_comm r.mask]

theorem opcodeMap_pairwise_disjoint : opcodeMap.Pairwise RowsDisjoint := by
  unfold RowsDisjoint
  decide

theorem eq_row_of_accepts {r r' : OpcodeRow} (hr : r ∈ opcodeMap) (hr' : r' ∈ opcodeMap) {w : Word}
    (h : r.accepts w = true) (h' : r'.accepts w = true) : r = r' := by
  have hsymm : Std.Symm RowsDisjoint := ⟨fun _ _ => Ne.symm⟩
  by_contra hne
  exact (opcodeMap_pairwise_disjoint.forall hr hr' hne).not_both h h'

theorem length_le_one_of_accepts {rows : List OpcodeRow} (hdisjoint : rows.Pairwise RowsDisjoint) {w : Word}
    (h : ∀ r ∈ rows, r.accepts w = true) : rows.length ≤ 1 :=
  match rows with
  | [] => Nat.zero_le 1
  | [_] => le_rfl
  | r :: r' :: _ =>
    have hrr' : RowsDisjoint r r' := List.rel_of_pairwise_cons hdisjoint List.mem_cons_self
    (hrr'.not_both (h r (by simp)) (h r' (by simp))).elim

theorem length_filter_accepts_le_one (w : Word) : (opcodeMap.filter (·.accepts w)).length ≤ 1 :=
  length_le_one_of_accepts (opcodeMap_pairwise_disjoint.filter (·.accepts w)) fun _ hr => (List.mem_filter.mp hr).2

/-- A word of a row decodes to that row's command (R72). -/
theorem decode_of_accepts {row : OpcodeRow} (hrow : row ∈ opcodeMap) {w : Word} (h : row.accepts w = true) :
    decode w = some (row.build w) := by
  cases hd : decode w with
  | none => exact absurd h (List.find?_eq_none.mp (Option.map_eq_none_iff.mp hd) row hrow)
  | some i =>
    obtain ⟨row', hrow', haccepts, rfl⟩ := exists_row_of_decode hd
    rw [eq_row_of_accepts hrow hrow' h haccepts]

theorem mnemonic_build : ∀ row ∈ opcodeMap, ∀ w, (row.build w).mnemonic = row.mnemonic := by
  intro row hrow w
  fin_cases hrow <;> rfl

theorem eq_row_of_mnemonic {r r' : OpcodeRow} (hr : r ∈ opcodeMap) (hr' : r' ∈ opcodeMap)
    (h : r.mnemonic = r'.mnemonic) : r = r' :=
  List.inj_on_of_nodup_map (f := OpcodeRow.mnemonic) (by decide) hr hr' h

/-- A word decodes to a command of a row's name exactly when the row accepts it. -/
theorem accepts_iff_decode_mnemonic {row : OpcodeRow} (hrow : row ∈ opcodeMap) (w : Word) :
    row.accepts w = true ↔ ∃ i, decode w = some i ∧ i.mnemonic = row.mnemonic := by
  constructor
  · exact fun h => ⟨_, decode_of_accepts hrow h, mnemonic_build row hrow w⟩
  · rintro ⟨i, hdecode, hname⟩
    obtain ⟨row', hrow', haccepts, rfl⟩ := exists_row_of_decode hdecode
    rw [mnemonic_build row' hrow'] at hname
    rwa [← eq_row_of_mnemonic hrow' hrow hname]

/-- Settles O3: the map is R70's table, row for row, and its rows are pairwise disjoint and differently named. -/
theorem opcodeMapIsExact : Obligations.OpcodeMapIsExact :=
  ⟨rfl, fun w row hrow => (accepts_iff row w).symm.trans (accepts_iff_decode_mnemonic hrow w), length_filter_accepts_le_one⟩

end Sys2Proof.Machine
end

section
/-! PROOFS. The two formats as numbers (R65, R66): what each field of a word reads, and the word that given fields make. -/

namespace Sys2Proof.Machine

open Sys2Proof.Expect

/-! The fields of a word. -/

theorem fieldRd_val (w : Word) : (fieldRd w).val = w.toNat / 2 ^ 8 % 2 ^ 3 := by
  simp only [fieldRd, BitVec.val_toFin, BitVec.extractLsb'_toNat, Nat.shiftRight_eq_div_pow]

theorem fieldRs1_val (w : Word) : (fieldRs1 w).val = w.toNat / 2 ^ 12 % 2 ^ 3 := by
  simp only [fieldRs1, BitVec.val_toFin, BitVec.extractLsb'_toNat, Nat.shiftRight_eq_div_pow]

theorem fieldRs2_val (w : Word) : (fieldRs2 w).val = w.toNat / 2 ^ 16 % 2 ^ 3 := by
  simp only [fieldRs2, BitVec.val_toFin, BitVec.extractLsb'_toNat, Nat.shiftRight_eq_div_pow]

theorem fieldImm20_eq (w : Word) : fieldImm20 w = w.toNat / 2 ^ 12 := by
  have hw := w.isLt
  simp only [fieldImm20, BitVec.extractLsb'_toNat, Nat.shiftRight_eq_div_pow]
  omega

theorem getLsbD_eq_div_mod (w : Word) (k : Nat) : w.getLsbD k = decide (w.toNat / 2 ^ k % 2 = 1) :=
  Nat.testBit_eq_decide_div_mod_eq

theorem bit_getLsbD (w : Word) (k : Nat) : bit (w.getLsbD k) = w.toNat / 2 ^ k % 2 := by
  rw [getLsbD_eq_div_mod, bit]
  split <;> simp_all

theorem reservedR_eq_false_iff (w : Word) : reservedR w = false ↔
    w.toNat / 2 ^ 11 % 2 = 0 ∧ w.toNat / 2 ^ 15 % 2 = 0 ∧ w.toNat / 2 ^ 19 % 2 = 0 ∧ w.toNat / 2 ^ 21 = 0 := by
  simp only [reservedR, getLsbD_eq_div_mod, Bool.or_eq_false_iff, decide_eq_false_iff_not, bne_eq_false_iff_eq,
    Nat.mod_two_not_eq_one, and_assoc]

/-! The words of the formats. -/

theorem bit_le_one (b : Bool) : bit b ≤ 1 := by cases b <;> decide

theorem bit_injective : Function.Injective bit := by decide

/-- A field or-ed in above a word's own bits is added to it. -/
theorem toNat_or_shiftLeft {x : Word} {y k : Nat} (hx : x.toNat < 2 ^ k) (hy : y * 2 ^ k < 2 ^ 32) :
    (x ||| (BitVec.ofNat 32 y <<< k)).toNat = x.toNat + y * 2 ^ k := by
  have hy' : y < 2 ^ 32 := lt_of_le_of_lt (Nat.le_mul_of_pos_right y (by positivity)) hy
  rw [BitVec.toNat_or, BitVec.toNat_shiftLeft, BitVec.toNat_ofNat, Nat.mod_eq_of_lt hy', Nat.shiftLeft_eq,
    Nat.mod_eq_of_lt hy, ← Nat.shiftLeft_eq, Nat.lor_comm, ← Nat.shiftLeft_add_eq_or_of_lt hx, Nat.add_comm,
    Nat.shiftLeft_eq]

/-- The OP and RD fields, which both formats begin with. -/
theorem toNat_opRd {o : Word} (ho : o.toNat < 256) (rd : Reg) :
    (o ||| (regBits rd <<< 8)).toNat = o.toNat + rd.val * 2 ^ 8 :=
  toNat_or_shiftLeft ho (by omega)

theorem toNat_formatI {o : Word} (ho : o.toNat < 256) (rd : Reg) {imm : Nat} (himm : imm < 2 ^ 20) :
    (formatI o rd imm).toNat = o.toNat + rd.val * 2 ^ 8 + imm * 2 ^ 12 := by
  have hrd := toNat_opRd ho rd
  rw [formatI, toNat_or_shiftLeft (by omega) (by omega), hrd]

theorem toNat_formatR {o : Word} (ho : o.toNat < 256) (rd rs1 rs2 : Reg) (chk : Bool) :
    (formatR o rd rs1 rs2 chk).toNat =
      o.toNat + rd.val * 2 ^ 8 + rs1.val * 2 ^ 12 + rs2.val * 2 ^ 16 + bit chk * 2 ^ 20 := by
  have hchk := bit_le_one chk
  have hrd := toNat_opRd ho rd
  have hrs1 : (o ||| (regBits rd <<< 8) ||| (regBits rs1 <<< 12)).toNat = o.toNat + rd.val * 2 ^ 8 + rs1.val * 2 ^ 12 := by
    rw [← hrd]; exact toNat_or_shiftLeft (by omega) (by omega)
  have hrs2 : (o ||| (regBits rd <<< 8) ||| (regBits rs1 <<< 12) ||| (regBits rs2 <<< 16)).toNat =
      o.toNat + rd.val * 2 ^ 8 + rs1.val * 2 ^ 12 + rs2.val * 2 ^ 16 := by
    rw [← hrs1]; exact toNat_or_shiftLeft (by omega) (by omega)
  rw [formatR, toNat_or_shiftLeft (by omega) (by omega), hrs2]

/-! Each field of a format's word reads back. -/

section
variable {o : Word} (ho : o.toNat < 256) (rd rs1 rs2 : Reg) (chk : Bool) {imm : Nat} (himm : imm < 2 ^ 20)
include ho

theorem op_formatR : op (formatR o rd rs1 rs2 chk) = o.toNat := by
  rw [op, toNat_formatR ho]
  omega

theorem fieldRd_formatR : fieldRd (formatR o rd rs1 rs2 chk) = rd := by
  apply Fin.ext
  rw [fieldRd_val, toNat_formatR ho]
  omega

theorem fieldRs1_formatR : fieldRs1 (formatR o rd rs1 rs2 chk) = rs1 := by
  apply Fin.ext
  rw [fieldRs1_val, toNat_formatR ho]
  omega

theorem fieldRs2_formatR : fieldRs2 (formatR o rd rs1 rs2 chk) = rs2 := by
  apply Fin.ext
  rw [fieldRs2_val, toNat_formatR ho]
  omega

theorem getLsbD_chk_formatR : (formatR o rd rs1 rs2 chk).getLsbD 20 = chk := by
  have hchk := bit_le_one chk
  have hbit : bit ((formatR o rd rs1 rs2 chk).getLsbD 20) = bit chk := by
    rw [bit_getLsbD, toNat_formatR ho]
    omega
  exact bit_injective hbit

theorem reservedR_formatR : reservedR (formatR o rd rs1 rs2 chk) = false := by
  have hchk := bit_le_one chk
  rw [reservedR_eq_false_iff, toNat_formatR ho]
  omega

include himm

theorem op_formatI : op (formatI o rd imm) = o.toNat := by
  rw [op, toNat_formatI ho rd himm]
  omega

theorem fieldRd_formatI : fieldRd (formatI o rd imm) = rd := by
  apply Fin.ext
  rw [fieldRd_val, toNat_formatI ho rd himm]
  omega

theorem fieldImm20_formatI : fieldImm20 (formatI o rd imm) = imm := by
  rw [fieldImm20_eq, toNat_formatI ho rd himm]
  omega

theorem getLsbD_reserved_formatI : (formatI o rd imm).getLsbD 11 = false := by
  rw [getLsbD_eq_div_mod, toNat_formatI ho rd himm, decide_eq_false_iff_not]
  omega

end

/-! A word whose reserved bits are 0 is the format's word of its own fields. -/

theorem formatR_eq_of_fields {w o : Word} (ho : op w = o.toNat) (h : reservedR w = false) {rd rs1 rs2 : Reg} {chk : Bool}
    (hchk : w.getLsbD 20 = chk) (hrd : fieldRd w = rd) (hrs1 : fieldRs1 w = rs1) (hrs2 : fieldRs2 w = rs2) :
    formatR o rd rs1 rs2 chk = w := by
  obtain ⟨h11, h15, h19, h21⟩ := (reservedR_eq_false_iff w).mp h
  have hop : o.toNat < 256 := ho ▸ Nat.mod_lt _ (by decide)
  subst hchk hrd hrs1 hrs2
  apply BitVec.eq_of_toNat_eq
  rw [toNat_formatR hop, fieldRd_val, fieldRs1_val, fieldRs2_val, bit_getLsbD, ← ho, op]
  omega

/-- A word that R73 lets use RD, RS1 and RS2 only. -/
theorem formatR_eq_of_three_registers {w o : Word} (ho : op w = o.toNat) (h : (reservedR w || w.getLsbD 20) = false) :
    formatR o (fieldRd w) (fieldRs1 w) (fieldRs2 w) false = w := by
  obtain ⟨hres, hchk⟩ := Bool.or_eq_false_iff.mp h
  exact formatR_eq_of_fields ho hres hchk rfl rfl rfl

/-- A word that R73 lets use RD and RS1 only. -/
theorem formatR_eq_of_two_registers {w o : Word} (ho : op w = o.toNat)
    (h : (reservedR w || w.getLsbD 20 || fieldRs2 w != 0) = false) : formatR o (fieldRd w) (fieldRs1 w) 0 false = w := by
  simp only [Bool.or_eq_false_iff, bne_eq_false_iff_eq] at h
  obtain ⟨⟨hres, hchk⟩, hrs2⟩ := h
  exact formatR_eq_of_fields ho hres hchk rfl rfl hrs2

theorem fieldImm20_lt (w : Word) : fieldImm20 w < 2 ^ 20 := BitVec.isLt _

theorem formatI_eq_of_fields {w o : Word} (ho : op w = o.toNat) (h : w.getLsbD 11 = false) :
    formatI o (fieldRd w) (fieldImm20 w) = w := by
  have h11 : w.toNat / 2 ^ 11 % 2 = 0 := by rw [← bit_getLsbD, h]; rfl
  have hop : o.toNat < 256 := ho ▸ Nat.mod_lt _ (by decide)
  apply BitVec.eq_of_toNat_eq
  rw [toNat_formatI hop _ (fieldImm20_lt w), fieldRd_val, fieldImm20_eq, ← ho, op]
  omega

end Sys2Proof.Machine
end

section
/-! PROOFS. The round trips of the decoder and the encoder (R65, R66, R70, R72, R73). -/

namespace Sys2Proof.Machine

open Sys2Proof.Expect

/-! Decoding the encoding. -/

/-- The row of the opcode map whose command an instruction is (R70). -/
def rowOf : Instr → OpcodeRow
  | .nop => opcodeMap[0]
  | .mov _ _ => opcodeMap[1]
  | .ldi _ _ => opcodeMap[2]
  | .setmod _ => opcodeMap[3]
  | .montmul _ _ _ => opcodeMap[4]
  | .tomont _ _ => opcodeMap[5]
  | .frommont _ _ => opcodeMap[6]
  | .modexp _ _ _ => opcodeMap[7]
  | .modexpChk _ _ _ => opcodeMap[8]
  | .modmul _ _ _ => opcodeMap[9]
  | .modred _ _ _ => opcodeMap[10]
  | .gcd _ _ _ => opcodeMap[11]
  | .modinv _ _ _ => opcodeMap[12]

theorem rowOf_mem (i : Instr) : rowOf i ∈ opcodeMap := by
  cases i <;> exact List.getElem_mem _

theorem rowOf_mnemonic (i : Instr) : (rowOf i).mnemonic = i.mnemonic := by
  cases i <;> rfl

/-- Every command's word matches the row of its own name, by the law of its constructor (R70). -/
theorem rowAccepts (i : Instr) : Laws.RowAccepts.Statement i := by
  cases i with
  | nop => exact Laws.RowAccepts.nop
  | mov rd rs1 => exact Laws.RowAccepts.mov rd rs1
  | ldi rd imm => exact Laws.RowAccepts.ldi rd imm
  | setmod rs1 => exact Laws.RowAccepts.setmod rs1
  | montmul rd rs1 rs2 => exact Laws.RowAccepts.montmul rd rs1 rs2
  | tomont rd rs1 => exact Laws.RowAccepts.tomont rd rs1
  | frommont rd rs1 => exact Laws.RowAccepts.frommont rd rs1
  | modexp rd rs1 rs2 => exact Laws.RowAccepts.modexp rd rs1 rs2
  | modexpChk rd rs1 rs2 => exact Laws.RowAccepts.modexpChk rd rs1 rs2
  | modmul rd rs1 rs2 => exact Laws.RowAccepts.modmul rd rs1 rs2
  | modred rd rs1 rs2 => exact Laws.RowAccepts.modred rd rs1 rs2
  | gcd rd rs1 rs2 => exact Laws.RowAccepts.gcd rd rs1 rs2
  | modinv rd rs1 rs2 => exact Laws.RowAccepts.modinv rd rs1 rs2

theorem rowOf_accepts_encode (i : Instr) : (rowOf i).accepts (encode i) = true := by
  obtain ⟨row, hrow, hname, haccepts⟩ := rowAccepts i
  rwa [← eq_row_of_mnemonic hrow (rowOf_mem i) (hname.trans (rowOf_mnemonic i).symm)]

/-- What is built from the fields of a format-R word is built from the registers it was made of (R65). -/
theorem build_formatR (build : Reg → Reg → Reg → Instr) {o : Word} (ho : o.toNat < 256) (rd rs1 rs2 : Reg) (chk : Bool) :
    build (fieldRd (formatR o rd rs1 rs2 chk)) (fieldRs1 (formatR o rd rs1 rs2 chk)) (fieldRs2 (formatR o rd rs1 rs2 chk)) =
      build rd rs1 rs2 := by
  rw [fieldRd_formatR ho, fieldRs1_formatR ho, fieldRs2_formatR ho]

/-- The row reads back the fields that the encoder wrote. -/
theorem rowOf_build_encode {i : Instr} (h : i.wellFormed = true) : (rowOf i).build (encode i) = i := by
  cases i with
  | nop => rfl
  | ldi rd imm =>
    exact congrArg₂ Instr.ldi (fieldRd_formatI (by decide) rd (of_decide_eq_true h))
      (fieldImm20_formatI (by decide) rd (of_decide_eq_true h))
  | setmod rs1 => exact build_formatR (fun _ a _ => .setmod a) (by decide) 0 rs1 0 false
  | mov rd rs1 => exact build_formatR (fun d a _ => .mov d a) (by decide) rd rs1 0 false
  | tomont rd rs1 => exact build_formatR (fun d a _ => .tomont d a) (by decide) rd rs1 0 false
  | frommont rd rs1 => exact build_formatR (fun d a _ => .frommont d a) (by decide) rd rs1 0 false
  | montmul rd rs1 rs2 | modexp rd rs1 rs2 | modexpChk rd rs1 rs2 | modmul rd rs1 rs2 | modred rd rs1 rs2
  | gcd rd rs1 rs2 | modinv rd rs1 rs2 => exact build_formatR _ (by decide) rd rs1 rs2 _

theorem decode_encode {i : Instr} (h : i.wellFormed = true) : decode (encode i) = some i := by
  rw [decode_of_accepts (rowOf_mem i) (rowOf_accepts_encode i), rowOf_build_encode h]

/-- Settles O1: the command's own row accepts its word, and reads back the fields it was made of. -/
theorem decodeEncodeRoundTrip : Obligations.DecodeEncodeRoundTrip := fun _ => decode_encode

/-! Encoding what was decoded. -/

/-- A field of `len` bits, put back in its place. -/
theorem extractLsb'_shiftLeft_eq_and (w : Word) (k len : Nat) :
    BitVec.ofNat 32 (w.extractLsb' k len).toNat <<< k = w &&& (BitVec.ofNat 32 (2 ^ len - 1) <<< k) := by
  apply BitVec.eq_of_getLsbD_eq
  intro j hj
  simp only [BitVec.getLsbD_shiftLeft, BitVec.getLsbD_and, BitVec.getLsbD_ofNat, Nat.testBit_two_pow_sub_one,
    BitVec.testBit_toNat, BitVec.getLsbD_extractLsb']
  by_cases hk : j < k
  · simp [hk]
  · simp [hk, hj, show j - k < 32 by omega, show k + (j - k) = j by omega, Bool.and_comm]

theorem and_or_and_not (w m : Word) : (w &&& m) ||| (w &&& ~~~m) = w := by
  rw [← BitVec.and_or_distrib_left, BitVec.or_not_self, BitVec.and_allOnes]

/-- What a row builds from a word is encoded as the row's pattern and the word's own bits outside the mask. -/
theorem encode_build : ∀ row ∈ opcodeMap, ∀ w, encode (row.build w) = row.pattern ||| (w &&& ~~~row.mask) := by
  intro row hrow w
  have hrd : regBits (fieldRd w) <<< 8 = w &&& 0x700#32 := extractLsb'_shiftLeft_eq_and w 8 3
  have hrs1 : regBits (fieldRs1 w) <<< 12 = w &&& 0x7000#32 := extractLsb'_shiftLeft_eq_and w 12 3
  have hrs2 : regBits (fieldRs2 w) <<< 16 = w &&& 0x70000#32 := extractLsb'_shiftLeft_eq_and w 16 3
  have himm : BitVec.ofNat 32 (fieldImm20 w) <<< 12 = w &&& 0xFFFFF000#32 := extractLsb'_shiftLeft_eq_and w 12 20
  have hzero : regBits 0 = 0#32 := rfl
  have hchk : 0x20#32 ||| (w &&& 0x77700#32 ||| 0x100000#32) = 0x100020#32 ||| (w &&& 0x77700#32) := by
    rw [BitVec.or_comm (w &&& _), ← BitVec.or_assoc]
    rfl
  fin_cases hrow <;>
    simp [encode, formatR, formatI, bit, hrd, hrs1, hrs2, himm, hzero, hchk, BitVec.or_assoc,
      ← BitVec.and_or_distrib_left]

theorem encode_build_of_accepts {row : OpcodeRow} (hrow : row ∈ opcodeMap) {w : Word} (h : row.accepts w = true) :
    encode (row.build w) = w := by
  rw [encode_build row hrow, ← (accepts_iff row w).mp h, and_or_and_not]

/-- Every row builds well-formed commands: the immediate is a field of 20 bits (R68). -/
theorem wellFormed_build : ∀ row ∈ opcodeMap, ∀ w, (row.build w).wellFormed = true := by
  have himm : ∀ rd w, (Instr.ldi rd (fieldImm20 w)).wellFormed = true := fun _ w => decide_eq_true (fieldImm20_lt w)
  intro row hrow w
  fin_cases hrow
  on_goal 3 => exact himm _ w
  all_goals rfl

theorem wellFormed_and_encode_of_decode {w : Word} {i : Instr} (h : decode w = some i) :
    i.wellFormed = true ∧ encode i = w := by
  obtain ⟨row, hrow, haccepts, rfl⟩ := exists_row_of_decode h
  exact ⟨wellFormed_build row hrow w, encode_build_of_accepts hrow haccepts⟩

/-- Settles O2: an accepted word is its row's pattern and the fields that the row reads. -/
theorem decodedWordIsItsEncoding : Obligations.DecodedWordIsItsEncoding := fun _ _ => wellFormed_and_encode_of_decode

end Sys2Proof.Machine
end

section
/-! PROOFS. The illegal words (R73), and how such a command completes. -/

namespace Sys2Proof.Machine

open Sys2Proof.Expect

/-- The encoder writes no illegal word: the unused fields are 0 (R73). -/
theorem illegalWord_encode {i : Instr} (h : i.wellFormed = true) : illegalWord (encode i) = false := by
  cases i with
  | nop => rfl
  | ldi rd imm =>
    have himm : imm < 2 ^ 20 := of_decide_eq_true h
    rw [encode, illegalWord, op_formatI (by decide) rd himm]
    exact getLsbD_reserved_formatI (by decide) rd himm
  | _ =>
    simp only [encode, illegalWord]
    rw [op_formatR (by decide)]
    simp (disch := decide) only [reservedR_formatR, getLsbD_chk_formatR, fieldRd_formatR, fieldRs1_formatR, fieldRs2_formatR]
    rfl

/-- A word that R73 does not call illegal is the encoding of a command, read off its own fields. -/
theorem exists_encode_of_not_illegal {w : Word} (h : illegalWord w = false) :
    ∃ i : Instr, i.wellFormed = true ∧ encode i = w := by
  simp only [illegalWord] at h
  split at h
  · next hop =>
    simp only [Bool.or_eq_false_iff, bne_eq_false_iff_eq] at h
    obtain ⟨⟨⟨⟨hres, hchk⟩, hrd⟩, hrs1⟩, hrs2⟩ := h
    exact ⟨.nop, rfl, formatR_eq_of_fields hop hres hchk hrd hrs1 hrs2⟩
  · next hop => exact ⟨.mov _ _, rfl, formatR_eq_of_two_registers hop h⟩
  · next hop => exact ⟨.ldi _ _, decide_eq_true (fieldImm20_lt w), formatI_eq_of_fields hop h⟩
  · next hop =>
    simp only [Bool.or_eq_false_iff, bne_eq_false_iff_eq] at h
    obtain ⟨⟨⟨hres, hchk⟩, hrd⟩, hrs2⟩ := h
    exact ⟨.setmod _, rfl, formatR_eq_of_fields hop hres hchk hrd rfl hrs2⟩
  · next hop => exact ⟨.montmul _ _ _, rfl, formatR_eq_of_three_registers hop h⟩
  · next hop => exact ⟨.tomont _ _, rfl, formatR_eq_of_two_registers hop h⟩
  · next hop => exact ⟨.frommont _ _, rfl, formatR_eq_of_two_registers hop h⟩
  · next hop =>
    cases hchk : w.getLsbD 20 with
    | false => exact ⟨.modexp _ _ _, rfl, formatR_eq_of_fields hop h hchk rfl rfl rfl⟩
    | true => exact ⟨.modexpChk _ _ _, rfl, formatR_eq_of_fields hop h hchk rfl rfl rfl⟩
  · next hop => exact ⟨.modmul _ _ _, rfl, formatR_eq_of_three_registers hop h⟩
  · next hop => exact ⟨.modred _ _ _, rfl, formatR_eq_of_three_registers hop h⟩
  · next hop => exact ⟨.gcd _ _ _, rfl, formatR_eq_of_three_registers hop h⟩
  · next hop => exact ⟨.modinv _ _ _, rfl, formatR_eq_of_three_registers hop h⟩
  · cases h

/-- The words without a command are the ones R73 calls illegal. -/
theorem decode_eq_none_iff (w : Word) : decode w = none ↔ illegalWord w = true := by
  constructor
  · intro hnone
    by_contra hlegal
    obtain ⟨i, hwf, rfl⟩ := exists_encode_of_not_illegal (Bool.eq_false_of_not_eq_true hlegal)
    simp [decode_encode hwf] at hnone
  · intro hillegal
    cases hd : decode w with
    | none => rfl
    | some i =>
      obtain ⟨hwf, rfl⟩ := wellFormed_and_encode_of_decode hd
      simp [illegalWord_encode hwf] at hillegal

/-- A word that decodes to no row completes with code 1 and writes nothing else (R72, R112). -/
theorem completeCommand_of_undecoded {s : State} (h : decode s.cmd = none) :
    completeCommand s = .next (failed s 1#4) := by
  rw [completeCommand, h]
  rfl

/-- Settles O4: the words that decode are the encodings, which are the words R73 does not call illegal; the CMD write accepts the
word undecoded, and the completion finds no row. -/
theorem illegalWordsComplete : Obligations.IllegalWordsComplete := by
  refine ⟨decode_eq_none_iff, fun s w hl hb hw => ?_⟩
  have haccept := step_hostCmd_idle (s := facing .engine s) hl hb w
  have hcomplete := completeCommand_of_undecoded (s := (s.accept w).respond .ack) ((decode_eq_none_iff w).mpr hw)
  exact ⟨_, run_two haccept ((step_facing_engine_busy (s := (s.accept w).respond .ack) hl rfl).trans hcomplete), rfl⟩

end Sys2Proof.Machine
end

section
/-! PROOFS. The spec's encoding examples (R76, R77), and the step at which the command in flight is executed (R105). -/

namespace Sys2Proof.Machine

open Sys2Proof.Expect

/-- Settles O5: each word and each mnemonic is evaluated, the registers of an expansion left free. -/
theorem encodingExamplesDecode : Obligations.EncodingExamplesDecode :=
  ⟨by decide, by decide, by decide, by decide, by decide, fun _ _ _ => ⟨rfl, rfl, rfl, rfl, rfl, rfl⟩⟩

/-- With no turn left, the step is the completion of the command in flight (R135). -/
theorem step_nil_busy {s : State} (hl : s.plat.legal = true) (ha : s.agenda = []) (hb : s.busy = true) :
    step s = completeCommand s := by
  rw [step_of_legal hl, nextTurn_nil ha, engineTurn, if_pos hb]

theorem step_facing_engine_idle {s : State} (hl : s.plat.legal = true) (hb : s.busy = false) :
    step (facing .engine s) = .next s := by
  simp [step_facing hl, takeTurn, engineTurn, hb]

/-- Settles O6: whichever way the engine's turn comes, it is the completion while busy and nothing while idle. -/
theorem stepRunsTheDecodedCommand : Obligations.StepRunsTheDecodedCommand := fun _ hl =>
  ⟨fun _ hb hi => (step_facing_engine_busy hl hb).trans (completeCommand_of_decode hi),
    fun _ hb hi ha => (step_nil_busy hl ha hb).trans (completeCommand_of_decode hi), step_facing_engine_idle hl⟩

end Sys2Proof.Machine
end

section
/-! PROOFS. The control and data-movement commands (40_control.md): the rows of their opcodes (R70, R73), and what their
completions leave (R78, R105, R112). -/

namespace Sys2Proof.Machine

open Sys2Proof.Expect

/-! The row of an opcode. -/

/-- Where one row alone has its OP, the words of that OP are the row's command or ILLEGAL (R70, R73). -/
theorem opRow_of_unique {row : OpcodeRow} (hrow : row ∈ opcodeMap)
    (hunique : ∀ r ∈ opcodeMap, op r.pattern = op row.pattern → r.mnemonic = row.mnemonic) :
    opRow (row.pattern &&& 0xFF#32) row.mask row.pattern row.build := by
  intro w hop
  split
  · next hmatch => exact decode_of_accepts hrow ((accepts_iff row w).mpr hmatch)
  · next hmatch =>
    refine Option.eq_none_iff_forall_ne_some.mpr fun i hi => hmatch ?_
    obtain ⟨r, hr, haccepts, -⟩ := exists_row_of_decode hi
    have hsame : op r.pattern = op row.pattern := by
      rw [← op_of_accepts hr haccepts, op_eq_and w, op_eq_and row.pattern, hop]
    rw [← eq_row_of_mnemonic hr hrow (hunique r hr hsame)]
    exact (accepts_iff r w).mp haccepts

/-! What a completion leaves, as the rules write it. -/

theorem State.complete_nothing_eq (s : State) : s.complete (.ok s) = finished s := rfl

theorem State.complete_writeReg_eq (s : State) (rd : Reg) (x : Nat) :
    s.complete (.ok (s.writeReg rd x)) = wrote s rd x := rfl

theorem State.complete_loadModulus_eq (s : State) (m : Nat) : s.complete (.ok (s.loadModulus m)) = loaded s m := rfl

theorem State.complete_error_eq (s : State) (e : CmdError) : s.complete (.error e) = failed s e.code := rfl

/-! SETMOD's two outcomes (R83). -/

theorem badModulus_eq_false_iff (m : Nat) : badModulus m = false ↔ goodModulus m := by
  simp [badModulus, goodModulus]

theorem exec_setmod (rs1 : Reg) (s : State) : exec (.setmod rs1) s = .next (s.complete
    (if badModulus (s.readReg rs1) then .error .badmod else .ok (s.loadModulus (s.readReg rs1)))) := rfl

theorem exec_setmod_of_good {rs1 : Reg} {s : State} (h : goodModulus (s.readReg rs1)) :
    exec (.setmod rs1) s = .next (loaded s (s.readReg rs1)) := by
  rw [exec_setmod, (badModulus_eq_false_iff _).mpr h, if_neg Bool.false_ne_true, State.complete_loadModulus_eq]

theorem exec_setmod_of_bad {rs1 : Reg} {s : State} (h : ¬ goodModulus (s.readReg rs1)) :
    exec (.setmod rs1) s = .next (failed s 3#4) := by
  have hbad : badModulus (s.readReg rs1) = true := by
    rwa [← badModulus_eq_false_iff, Bool.not_eq_false] at h
  rw [exec_setmod, if_pos hbad, State.complete_error_eq, CmdError.code]

/-- Settles O16: OP 0x08 has one row, and the moduli that are not bad are the odd ones of at least 3. -/
theorem setmodLoadsOrRejects : Obligations.SetmodLoadsOrRejects := by
  constructor
  · exact opRow_of_unique (row := opcodeMap[3]) (List.getElem_mem _) (by decide)
  · exact fun _ _ => ⟨exec_setmod_of_good, exec_setmod_of_bad⟩

/-! The commands without an error. -/

/-- Settles O13: OP 0x00 has one row, whose mask is the whole word, and Execute writes nothing. -/
theorem nopOnlyCompletes : Obligations.NopOnlyCompletes := by
  constructor
  · exact opRow_of_unique (row := opcodeMap[0]) (List.getElem_mem _) (by decide)
  · exact fun s => congrArg Host.Outcome.next s.complete_nothing_eq

/-- Settles O14: OP 0x01 has one row, and Execute writes the value read. -/
theorem movCopiesTheRegister : Obligations.MovCopiesTheRegister := by
  constructor
  · exact opRow_of_unique (row := opcodeMap[1]) (List.getElem_mem _) (by decide)
  · exact fun rd rs1 s => congrArg Host.Outcome.next (s.complete_writeReg_eq rd (s.readReg rs1))

/-- LDI writes the immediate's low 20 bits (R68). -/
theorem exec_ldi (rd : Reg) (imm : Nat) (s : State) : exec (.ldi rd imm) s = .next (wrote s rd (zextImm imm)) :=
  congrArg Host.Outcome.next (s.complete_writeReg_eq rd (zextImm imm))

/-- Settles O15: OP 0x02 has one row, its immediate field is the word divided by `2^12`, and the zero extension of an immediate
below `2^20` is the immediate. -/
theorem ldiLoadsTheImmediate : Obligations.LdiLoadsTheImmediate := by
  constructor
  · simp only [← fieldImm20_eq]
    exact opRow_of_unique (row := opcodeMap[2]) (List.getElem_mem _) (by decide)
  · intro rd imm s himm
    rw [exec_ldi, zextImm_of_fits (decide_eq_true himm)]

end Sys2Proof.Machine
end

section
/-! PROOFS. The numbers of the Montgomery multiplier (R84 to R88): the Montgomery product is the one number below `N` that the radix
carries to the product, and the two conversions are inverse to each other. -/

namespace Sys2Proof.Machine

theorem coprime_two_pow_of_odd {n : Nat} (hodd : n % 2 = 1) (k : Nat) : Nat.Coprime n (2 ^ k) :=
  (Nat.coprime_two_right.mpr (Nat.odd_iff.mpr hodd)).pow_right k

/-- A number below `N` that the radix carries to `a * b` is the Montgomery product: the radix can be cancelled (R84, R85). -/
theorem eq_montProduct {opw n a b x : Nat} (hodd : n % 2 = 1) (h3 : 3 ≤ n) (hx : x < n)
    (h : x * 2 ^ opw ≡ a * b [MOD n]) : x = montProduct opw n a b := by
  obtain ⟨hlt, hprod⟩ := montProduct_spec opw a b hodd h3
  exact ((h.trans hprod.symm).cancel_right_of_coprime (coprime_two_pow_of_odd hodd opw)).eq_of_lt_of_lt hx hlt

theorem montProduct_comm (opw n a b : Nat) : montProduct opw n a b = montProduct opw n b a := by
  rw [montProduct, mul_comm a b, montProduct]

/-- FROMMONT's number is MONTMUL's with `b = 1` (R87). -/
theorem fromMontgomery_eq_montProduct (opw n a : Nat) : fromMontgomery opw n a = montProduct opw n a 1 := by
  rw [fromMontgomery, montProduct, mul_one]

theorem toMontgomery_modEq (opw n a : Nat) : toMontgomery opw n a ≡ a * 2 ^ opw [MOD n] := Nat.mod_modEq _ _

theorem fromMontgomery_toMontgomery (opw : Nat) {n a : Nat} (hodd : n % 2 = 1) (h3 : 3 ≤ n) (ha : a < n) :
    fromMontgomery opw n (toMontgomery opw n a) = a := by
  rw [fromMontgomery_eq_montProduct]
  refine (eq_montProduct hodd h3 ha ?_).symm
  rw [mul_one]
  exact (toMontgomery_modEq opw n a).symm

theorem toMontgomery_fromMontgomery (opw : Nat) {n a : Nat} (hodd : n % 2 = 1) (h3 : 3 ≤ n) (ha : a < n) :
    toMontgomery opw n (fromMontgomery opw n a) = a := by
  have h : fromMontgomery opw n a * 2 ^ opw ≡ a [MOD n] := by
    simpa [fromMontgomery_eq_montProduct] using (montProduct_spec opw a 1 hodd h3).2
  exact ((toMontgomery_modEq opw n _).trans h).eq_of_lt_of_lt (Nat.mod_lt _ (by omega)) ha

/-- MONTMUL of two Montgomery forms is the Montgomery form of the product (R88). -/
theorem montProduct_toMontgomery (opw a b : Nat) {n : Nat} (hodd : n % 2 = 1) (h3 : 3 ≤ n) :
    montProduct opw n (toMontgomery opw n a) (toMontgomery opw n b) = toMontgomery opw n (a * b % n) := by
  have hform : toMontgomery opw n (a * b % n) ≡ a * b * 2 ^ opw [MOD n] :=
    (toMontgomery_modEq opw n _).trans ((Nat.mod_modEq _ n).mul_right _)
  refine (eq_montProduct hodd h3 (Nat.mod_lt _ (by omega)) ?_).symm
  calc toMontgomery opw n (a * b % n) * 2 ^ opw
      ≡ a * b * 2 ^ opw * 2 ^ opw [MOD n] := hform.mul_right _
    _ = a * 2 ^ opw * (b * 2 ^ opw) := by ring
    _ ≡ toMontgomery opw n a * toMontgomery opw n b [MOD n] :=
        ((toMontgomery_modEq opw n a).mul (toMontgomery_modEq opw n b)).symm

end Sys2Proof.Machine
end

section
/-! PROOFS. What MONTMUL, TOMONT and FROMMONT complete with (41_montgomery.md): NOMOD, RANGE, or the destination written (R85 to
R87, R110). -/

namespace Sys2Proof.Machine

open Sys2Proof.Expect

/-! A completion that needs the modulus and checks its operands against it (R110). -/

theorem State.complete_withModulus_none {s : State} (hmv : s.mv = false) (k : Nat → Except CmdError State) :
    s.complete (s.withModulus k) = failed s 2#4 := by
  rw [State.withModulus_none hmv, State.complete_error_eq, CmdError.code]

theorem State.complete_withModulus_check_fails {s : State} (hmv : s.mv = true) {check : Nat → Prop} [DecidablePred check]
    (h : check s.n) (e : CmdError) (k : Nat → Except CmdError State) :
    s.complete (s.withModulus fun n => if check n then .error e else k n) = failed s e.code := by
  rw [State.withModulus_loaded hmv, if_pos h, State.complete_error_eq]

theorem State.complete_withModulus_check_passes {s : State} (hmv : s.mv = true) {check : Nat → Prop} [DecidablePred check]
    (h : ¬ check s.n) (e : CmdError) (rd : Reg) (x : Nat → Nat) :
    s.complete (s.withModulus fun n => if check n then .error e else .ok (s.writeReg rd (x n))) = wrote s rd (x s.n) := by
  rw [State.withModulus_loaded hmv, if_neg h, State.complete_writeReg_eq]

/-! The number each command writes, of the values its operands hold. -/

theorem exec_montmul_of_lt {s : State} (hmv : s.mv = true) (rd : Reg) {rs1 rs2 : Reg} {a b : Nat}
    (h1 : s.readReg rs1 = a) (h2 : s.readReg rs2 = b) (ha : a < s.n) (hb : b < s.n) :
    exec (.montmul rd rs1 rs2) s = .next (wrote s rd (montProduct s.plat.opw s.n a b)) := by
  subst h1 h2
  exact congrArg Host.Outcome.next (State.complete_withModulus_check_passes hmv (by omega) .range rd _)

theorem exec_tomont_of_lt {s : State} (hmv : s.mv = true) (rd : Reg) {rs1 : Reg} {a : Nat} (h1 : s.readReg rs1 = a)
    (ha : a < s.n) : exec (.tomont rd rs1) s = .next (wrote s rd (toMontgomery s.plat.opw s.n a)) := by
  subst h1
  exact congrArg Host.Outcome.next (State.complete_withModulus_check_passes hmv (by omega) .range rd _)

theorem exec_frommont_of_lt {s : State} (hmv : s.mv = true) (rd : Reg) {rs1 : Reg} {a : Nat} (h1 : s.readReg rs1 = a)
    (ha : a < s.n) : exec (.frommont rd rs1) s = .next (wrote s rd (fromMontgomery s.plat.opw s.n a)) := by
  subst h1
  exact congrArg Host.Outcome.next (State.complete_withModulus_check_passes hmv (by omega) .range rd _)

/-- `Rinv` as R84 defines it: the inverse of the radix reduced modulo `N`. -/
theorem montRadixInv_isInverse (opw : Nat) {n : Nat} (hn : goodModulus n) :
    1 ≤ montRadixInv opw n ∧ montRadixInv opw n < n ∧ 2 ^ opw % n * montRadixInv opw n % n = 1 := by
  rw [Nat.mod_mul_mod]
  exact montRadixInv_spec opw hn.1 hn.2

/-- Settles O17: OP 0x10 has one row, the completion checks the modulus and then the operands, and the number written is the product
times `Rinv`. -/
theorem montmulResult : Obligations.MontmulResult := by
  constructor
  · exact opRow_of_unique (row := opcodeMap[4]) (List.getElem_mem _) (by decide)
  · intro rd rs1 rs2 s
    refine ⟨fun hmv => ?_, fun hmv h => ?_, fun hmv hn h1 h2 => ?_⟩
    · exact congrArg Host.Outcome.next (State.complete_withModulus_none hmv _)
    · exact congrArg Host.Outcome.next (State.complete_withModulus_check_fails hmv h .range _)
    · obtain ⟨hpos, hlt, hinv⟩ := montRadixInv_isInverse s.plat.opw hn
      exact ⟨_, hpos, hlt, hinv, exec_montmul_of_lt hmv rd rfl rfl h1 h2⟩

/-- Settles O18: OP 0x11 has one row, the completion checks the modulus and then the operand, and the number written is the operand
times the radix. -/
theorem tomontResult : Obligations.TomontResult := by
  constructor
  · exact opRow_of_unique (row := opcodeMap[5]) (List.getElem_mem _) (by decide)
  · intro rd rs1 s
    refine ⟨fun hmv => ?_, fun hmv h => ?_, fun hmv h1 => exec_tomont_of_lt hmv rd rfl h1⟩
    · exact congrArg Host.Outcome.next (State.complete_withModulus_none hmv _)
    · exact congrArg Host.Outcome.next (State.complete_withModulus_check_fails hmv h .range _)

/-- Settles O19: OP 0x12 has one row, the completion checks the modulus and then the operand, and the number written is the operand
times `Rinv`. -/
theorem frommontResult : Obligations.FrommontResult := by
  constructor
  · exact opRow_of_unique (row := opcodeMap[6]) (List.getElem_mem _) (by decide)
  · intro rd rs1 s
    refine ⟨fun hmv => ?_, fun hmv h => ?_, fun hmv hn h1 => ?_⟩
    · exact congrArg Host.Outcome.next (State.complete_withModulus_none hmv _)
    · exact congrArg Host.Outcome.next (State.complete_withModulus_check_fails hmv h .range _)
    · obtain ⟨hpos, hlt, hinv⟩ := montRadixInv_isInverse s.plat.opw hn
      exact ⟨_, hpos, hlt, hinv, exec_frommont_of_lt hmv rd rfl h1⟩

end Sys2Proof.Machine
end

section
/-! PROOFS. The laws of the Montgomery multiplier as command sequences (R88). -/

namespace Sys2Proof.Machine

open Sys2Proof.Expect

/-! What a command of a sequence finds after one that wrote its destination. -/

@[simp] theorem wrote_mv (s : State) (rd : Reg) (x : Nat) : (wrote s rd x).mv = s.mv := rfl
@[simp] theorem wrote_n (s : State) (rd : Reg) (x : Nat) : (wrote s rd x).n = s.n := rfl
@[simp] theorem wrote_plat (s : State) (rd : Reg) (x : Nat) : (wrote s rd x).plat = s.plat := rfl
@[simp] theorem wrote_err (s : State) (rd : Reg) (x : Nat) : (wrote s rd x).err = 0#4 := rfl

@[simp] theorem wrote_readReg_self (s : State) (rd : Reg) (x : Nat) : (wrote s rd x).readReg rd = x :=
  s.readReg_writeReg_self rd x

theorem wrote_readReg_of_ne (s : State) {rd r : Reg} (x : Nat) (h : r ≠ rd) : (wrote s rd x).readReg r = s.readReg r :=
  (s.readReg_writeReg rd r x).trans (if_neg h)

theorem runAll_cons {i : Instr} {s t : State} (h : exec i s = .next t) (is : List Instr) :
    runAll (i :: is) s = runAll is t := by
  rw [runAll, h]

theorem exec_modmul_of_loaded {s : State} (hmv : s.mv = true) (rd rs1 rs2 : Reg) :
    exec (.modmul rd rs1 rs2) s = .next (wrote s rd (s.readReg rs1 * s.readReg rs2 % s.n)) :=
  congrArg Host.Outcome.next (by rw [State.withModulus_loaded hmv, State.complete_writeReg_eq])

/-- The state after TOMONT of `a` into `r1` and of `b` into `r2`. -/
def montgomeryForms (s : State) (r1 r2 : Reg) (a b : Nat) : State :=
  wrote (wrote s r1 (toMontgomery s.plat.opw s.n a)) r2 (toMontgomery s.plat.opw s.n b)

@[simp] theorem montgomeryForms_n (s : State) (r1 r2 : Reg) (a b : Nat) : (montgomeryForms s r1 r2 a b).n = s.n := rfl
@[simp] theorem montgomeryForms_plat (s : State) (r1 r2 : Reg) (a b : Nat) :
    (montgomeryForms s r1 r2 a b).plat = s.plat := rfl

theorem montgomeryForms_readReg_left (s : State) {r1 r2 : Reg} (h12 : r1 ≠ r2) (a b : Nat) :
    (montgomeryForms s r1 r2 a b).readReg r1 = toMontgomery s.plat.opw s.n a := by
  rw [montgomeryForms, wrote_readReg_of_ne _ _ h12, wrote_readReg_self]

theorem montgomeryForms_readReg_right (s : State) (r1 r2 : Reg) (a b : Nat) :
    (montgomeryForms s r1 r2 a b).readReg r2 = toMontgomery s.plat.opw s.n b :=
  wrote_readReg_self _ _ _

section
variable {s : State} {ra rb r1 r2 : Reg} (hmv : s.mv = true) (hn : goodModulus s.n) (ha : s.readReg ra < s.n)
  (hb : s.readReg rb < s.n)

include hmv hn ha in
/-- TOMONT then FROMMONT writes the number TOMONT was given (R88). -/
theorem runAll_tomont_frommont (r1 r2 : Reg) : runAll [.tomont r1 ra, .frommont r2 r1] s =
    some (wrote (wrote s r1 (toMontgomery s.plat.opw s.n (s.readReg ra))) r2 (s.readReg ra)) := by
  have hback := exec_frommont_of_lt (s := wrote s r1 (toMontgomery s.plat.opw s.n (s.readReg ra))) hmv r2
    (wrote_readReg_self _ _ _) (Nat.mod_lt _ (Nat.zero_lt_of_lt ha))
  rw [wrote_plat, wrote_n, fromMontgomery_toMontgomery _ hn.1 hn.2 ha] at hback
  rw [runAll_cons (exec_tomont_of_lt hmv r1 rfl ha), runAll_cons hback, runAll]

include hmv hn ha in
/-- FROMMONT then TOMONT writes the number FROMMONT was given (R88). -/
theorem runAll_frommont_tomont (r1 r2 : Reg) : runAll [.frommont r1 ra, .tomont r2 r1] s =
    some (wrote (wrote s r1 (fromMontgomery s.plat.opw s.n (s.readReg ra))) r2 (s.readReg ra)) := by
  have hback := exec_tomont_of_lt (s := wrote s r1 (fromMontgomery s.plat.opw s.n (s.readReg ra))) hmv r2
    (wrote_readReg_self _ _ _) (Nat.mod_lt _ (Nat.zero_lt_of_lt ha))
  rw [wrote_plat, wrote_n, toMontgomery_fromMontgomery _ hn.1 hn.2 ha] at hback
  rw [runAll_cons (exec_frommont_of_lt hmv r1 rfl ha), runAll_cons hback, runAll]

include hmv ha hb in
theorem runAll_tomont_tomont (h1b : r1 ≠ rb) (r2 : Reg) (is : List Instr) :
    runAll (.tomont r1 ra :: .tomont r2 rb :: is) s =
      runAll is (montgomeryForms s r1 r2 (s.readReg ra) (s.readReg rb)) := by
  have hsecond := exec_tomont_of_lt (s := wrote s r1 (toMontgomery s.plat.opw s.n (s.readReg ra))) hmv r2
    (wrote_readReg_of_ne _ _ h1b.symm) hb
  rw [runAll_cons (exec_tomont_of_lt hmv r1 rfl ha), runAll_cons hsecond, montgomeryForms, wrote_plat, wrote_n]

include hmv hn ha hb in
/-- Two conversions and a MONTMUL leave the Montgomery form of the product in `r3` (R88, R98). -/
theorem runAll_tomont_tomont_montmul (h1b : r1 ≠ rb) (h12 : r1 ≠ r2) (r3 : Reg) (is : List Instr) :
    runAll (.tomont r1 ra :: .tomont r2 rb :: .montmul r3 r1 r2 :: is) s =
      runAll is (wrote (montgomeryForms s r1 r2 (s.readReg ra) (s.readReg rb)) r3
        (toMontgomery s.plat.opw s.n (s.readReg ra * s.readReg rb % s.n))) := by
  have hpos : 0 < s.n := Nat.zero_lt_of_lt ha
  have hmul := exec_montmul_of_lt (s := montgomeryForms s r1 r2 (s.readReg ra) (s.readReg rb)) hmv r3
    (montgomeryForms_readReg_left s h12 _ _) (montgomeryForms_readReg_right s r1 r2 _ _) (Nat.mod_lt _ hpos)
    (Nat.mod_lt _ hpos)
  rw [montgomeryForms_plat, montgomeryForms_n, montProduct_toMontgomery _ _ _ hn.1 hn.2] at hmul
  rw [runAll_tomont_tomont hmv ha hb h1b, runAll_cons hmul]

include hmv hn ha hb in
/-- The route back from the Montgomery domain gives the product modulo `N` (R88, R98). -/
theorem runAll_montgomery_route (h1b : r1 ≠ rb) (h12 : r1 ≠ r2) (r3 r4 : Reg) :
    ∃ t, runAll [.tomont r1 ra, .tomont r2 rb, .montmul r3 r1 r2, .frommont r4 r3] s =
      some (wrote t r4 (s.readReg ra * s.readReg rb % s.n)) := by
  have hpos : 0 < s.n := Nat.zero_lt_of_lt ha
  have hback := exec_frommont_of_lt (s := wrote (montgomeryForms s r1 r2 (s.readReg ra) (s.readReg rb)) r3
    (toMontgomery s.plat.opw s.n (s.readReg ra * s.readReg rb % s.n))) hmv r4 (wrote_readReg_self _ _ _) (Nat.mod_lt _ hpos)
  rw [wrote_plat, wrote_n, montgomeryForms_plat, montgomeryForms_n,
    fromMontgomery_toMontgomery _ hn.1 hn.2 (Nat.mod_lt _ hpos)] at hback
  exact ⟨_, by rw [runAll_tomont_tomont_montmul hmv hn ha hb h1b h12, runAll_cons hback, runAll]⟩

end

/-- Settles O26: each law of the numbers, carried by the command sequence that computes its two sides. -/
theorem montgomeryLaws : Obligations.MontgomeryLaws := by
  intro s ra rb r1 r2 r3 r4 hmv hn ha hb
  refine ⟨⟨_, runAll_tomont_frommont hmv hn ha r1 r2, wrote_err _ _ _, wrote_readReg_self _ _ _⟩,
    ⟨_, runAll_frommont_tomont hmv hn ha r1 r2, wrote_err _ _ _, wrote_readReg_self _ _ _⟩, fun h1b h12 => ⟨?_, ?_⟩, ?_⟩
  · exact ⟨_, runAll_tomont_tomont_montmul hmv hn ha hb h1b h12 r3 [], wrote_err _ _ _, wrote_readReg_self _ _ _⟩
  · obtain ⟨t, hroute⟩ := runAll_montgomery_route hmv hn ha hb h1b h12 r3 r4
    exact ⟨_, _, hroute, wrote_err _ _ _, runAll_cons (exec_modmul_of_loaded hmv r4 ra rb) [], wrote_readReg_self _ _ _,
      by simp only [wrote_readReg_self]⟩
  · rw [exec_montmul_of_lt hmv r1 rfl rfl ha hb, exec_montmul_of_lt hmv r1 rfl rfl hb ha, montProduct_comm]

end Sys2Proof.Machine
end

section
/-! PROOFS. The word-serial Montgomery datapath (R89): the loop's invariant, and the one correction. -/

namespace Sys2Proof.Machine

open Sys2Proof.Expect

/-- `NINV` is the negated inverse of `N` modulo `2^32` (R89). -/
theorem montNinv_spec {n : Nat} (hodd : n % 2 = 1) : 2 ^ 32 ∣ montNinv n * n + 1 := by
  have hgcd : Nat.gcd (n % 2 ^ 32) (2 ^ 32) = 1 := coprime_two_pow_of_odd (by omega) 32
  obtain ⟨hpos, hlt, hinv⟩ := modInv_spec (by decide) hgcd
  have hninv : montNinv n + modInv (n % 2 ^ 32) (2 ^ 32) = 2 ^ 32 := by rw [montNinv]; omega
  have hone : n * modInv (n % 2 ^ 32) (2 ^ 32) ≡ 1 [MOD 2 ^ 32] := by
    rw [Nat.mod_mul_mod] at hinv
    exact hinv
  refine (Nat.modEq_zero_iff_dvd).mp ?_
  calc montNinv n * n + 1
      ≡ montNinv n * n + n * modInv (n % 2 ^ 32) (2 ^ 32) [MOD 2 ^ 32] := hone.symm.add_left _
    _ = (montNinv n + modInv (n % 2 ^ 32) (2 ^ 32)) * n := by rw [add_mul, mul_comm n]
    _ = 2 ^ 32 * n := by rw [hninv]
    _ ≡ 0 [MOD 2 ^ 32] := (Nat.modEq_zero_iff_dvd).mpr (Nat.dvd_mul_right _ _)

/-- The reduction of a turn is exact: it adds a multiple `m * N` that clears the low word, with `m` one word (R89). -/
theorem montReduceWord_spec {n : Nat} (hodd : n % 2 = 1) (t : Nat) :
    ∃ m < 2 ^ 32, montReduceWord n t * 2 ^ 32 = t + m * n := by
  refine ⟨t % 2 ^ 32 * montNinv n % 2 ^ 32, Nat.mod_lt _ (by decide), Nat.div_mul_cancel ?_⟩
  refine (Nat.modEq_zero_iff_dvd).mp ?_
  have hm : t % 2 ^ 32 * montNinv n % 2 ^ 32 ≡ t * montNinv n [MOD 2 ^ 32] :=
    (Nat.mod_modEq _ _).trans ((Nat.mod_modEq t _).mul_right _)
  calc t + t % 2 ^ 32 * montNinv n % 2 ^ 32 * n
      ≡ t + t * montNinv n * n [MOD 2 ^ 32] := (hm.mul_right n).add_left t
    _ = t * (montNinv n * n + 1) := by ring
    _ ≡ 0 [MOD 2 ^ 32] := (Nat.modEq_zero_iff_dvd).mpr ((montNinv_spec hodd).mul_left t)

theorem slice_word (a i : Nat) : slice a (32 * i + 31) (32 * i) = a / 2 ^ (32 * i) % 2 ^ 32 := by
  rw [slice, show 32 * i + 31 - 32 * i + 1 = 32 by omega]

theorem mod_two_pow_succ_word (a i : Nat) :
    a % 2 ^ (32 * (i + 1)) = a % 2 ^ (32 * i) + 2 ^ (32 * i) * slice a (32 * i + 31) (32 * i) := by
  rw [slice_word, pow_mul, pow_mul, Nat.mod_pow_succ]

/-- One turn: times `2^32`, the new `t` is the old one plus word `i` of `a` times `b`, modulo `N`; and it stays below
`2 * N` (R89). -/
theorem montWordStep_spec {n b t : Nat} (hodd : n % 2 = 1) (hb : b < n) (ht : t < 2 * n) (a i : Nat) :
    montWordStep n a b t i < 2 * n ∧
      montWordStep n a b t i * 2 ^ 32 ≡ t + slice a (32 * i + 31) (32 * i) * b [MOD n] := by
  have hword : slice a (32 * i + 31) (32 * i) < 2 ^ 32 := slice_word a i ▸ Nat.mod_lt _ (by decide)
  obtain ⟨m, hm, hreduce⟩ := montReduceWord_spec hodd (t + slice a (32 * i + 31) (32 * i) * b)
  rw [montWordStep]
  constructor
  · have hwb : slice a (32 * i + 31) (32 * i) * b ≤ (2 ^ 32 - 1) * n := Nat.mul_le_mul (by omega) hb.le
    have hmn : m * n ≤ (2 ^ 32 - 1) * n := Nat.mul_le_mul_right n (by omega)
    omega
  · rw [hreduce]
    exact Nat.add_mul_modulus_modEq_iff.mpr rfl

theorem montWordLoop_zero (n a b : Nat) : montWordLoop 0 n a b = 0 := rfl

theorem montWordLoop_succ (i n a b : Nat) : montWordLoop (i + 1) n a b = montWordStep n a b (montWordLoop i n a b) i := by
  rw [montWordLoop, List.range_succ, List.foldl_concat, montWordLoop]

/-- The loop's invariant: after `i` turns `t` is below `2 * N`, and `t * 2^(32*i)` is the low `i` words of `a` times `b`, modulo
`N` (R89). -/
theorem montWordLoop_spec {n b : Nat} (hodd : n % 2 = 1) (hb : b < n) (a i : Nat) :
    montWordLoop i n a b < 2 * n ∧
      montWordLoop i n a b * 2 ^ (32 * i) ≡ a % 2 ^ (32 * i) * b [MOD n] := by
  induction i with
  | zero =>
    rw [montWordLoop_zero]
    exact ⟨by omega, by simp [Nat.mod_one, Nat.ModEq.refl]⟩
  | succ i ih =>
    obtain ⟨hlt, hmod⟩ := ih
    obtain ⟨hlt', hstep⟩ := montWordStep_spec hodd hb hlt a i
    rw [montWordLoop_succ]
    refine ⟨hlt', ?_⟩
    calc montWordStep n a b (montWordLoop i n a b) i * 2 ^ (32 * (i + 1))
        = montWordStep n a b (montWordLoop i n a b) i * 2 ^ 32 * 2 ^ (32 * i) := by ring
      _ ≡ (montWordLoop i n a b + slice a (32 * i + 31) (32 * i) * b) * 2 ^ (32 * i) [MOD n] := hstep.mul_right _
      _ = montWordLoop i n a b * 2 ^ (32 * i) + 2 ^ (32 * i) * slice a (32 * i + 31) (32 * i) * b := by ring
      _ ≡ a % 2 ^ (32 * i) * b + 2 ^ (32 * i) * slice a (32 * i + 31) (32 * i) * b [MOD n] := hmod.add_right _
      _ = a % 2 ^ (32 * (i + 1)) * b := by rw [mod_two_pow_succ_word]; ring

/-- One correction reduces a number below `2 * N` (R89, R99). -/
theorem correctOnce_eq_mod {n t : Nat} (ht : t < 2 * n) : correctOnce n t = t % n := by
  rw [correctOnce]
  split
  · next h => rw [Nat.mod_eq_sub_mod h, Nat.mod_eq_of_lt (by omega)]
  · next h => rw [Nat.mod_eq_of_lt (by omega)]

/-- Settles O30: the loop's invariant at its end, where all words of `a` are taken, then the correction; the Montgomery product is
the only such number below `N`. -/
theorem montgomeryDatapathRefines : Obligations.MontgomeryDatapathRefines := by
  intro nw n a b ⟨hodd, h3⟩ hn ha hb
  obtain ⟨hloop, hmod⟩ := montWordLoop_spec hodd hb a nw
  rw [Nat.mod_eq_of_lt (ha.trans hn)] at hmod
  have hdatapath : montDatapath nw n a b = montWordLoop nw n a b % n := correctOnce_eq_mod hloop
  have hlt : montDatapath nw n a b < n := hdatapath ▸ Nat.mod_lt _ (by omega)
  have hradix : montDatapath nw n a b * 2 ^ (32 * nw) ≡ a * b [MOD n] :=
    hdatapath ▸ ((Nat.mod_modEq _ n).mul_right _).trans hmod
  exact ⟨hloop, hlt, hradix, eq_montProduct hodd h3 hlt hradix⟩

end Sys2Proof.Machine
end

section
/-! PROOFS. What MODEXP and MODEXP.CHK complete with (42_modexp.md): the rows of OP 0x20 (R69, R70), then NOMOD, the operand check's
error, or the exact power written (R90, R91, R110). -/

namespace Sys2Proof.Machine

open Sys2Proof.Expect

/-- OP 0x20 is the OP of two rows, which differ in CHK (R69, R70). -/
theorem modexp_mask_pattern_of_op : ∀ row ∈ opcodeMap, op row.pattern = 0x20 →
    row.mask = 0xFFF888FF#32 ∧ (row.pattern = 0x00000020#32 ∨ row.pattern = 0x00100020#32) := by
  decide

/-- A word of OP 0x20 that is neither MODEXP's nor MODEXP.CHK's has no row, so it is ILLEGAL (R73). -/
theorem decode_modexp_rows : modexpRows := by
  intro w hop
  split
  · next hmodexp => exact decode_of_accepts (row := opcodeMap[7]) (List.getElem_mem _) ((accepts_iff _ w).mpr hmodexp)
  · next hmodexp =>
    split
    · next hchk => exact decode_of_accepts (row := opcodeMap[8]) (List.getElem_mem _) ((accepts_iff _ w).mpr hchk)
    · next hchk =>
      refine Option.eq_none_iff_forall_ne_some.mpr fun i hi => ?_
      obtain ⟨row, hrow, haccepts, -⟩ := exists_row_of_decode hi
      have hsame : op row.pattern = 0x20 := by
        rw [← op_of_accepts hrow haccepts, op_eq_and, hop]
        rfl
      obtain ⟨hmask, hpattern⟩ := modexp_mask_pattern_of_op row hrow hsame
      rw [accepts_iff, hmask] at haccepts
      rw [← haccepts] at hpattern
      exact hpattern.elim hmodexp hchk

/-! The number the engine writes, of the values its operands hold. -/

theorem exec_modexp_of_lt {s : State} (hmv : s.mv = true) (rd : Reg) {rs1 rs2 : Reg} {a e : Nat}
    (h1 : s.readReg rs1 = a) (h2 : s.readReg rs2 = e) (ha : a < s.n) :
    exec (.modexp rd rs1 rs2) s = .next (wrote s rd (a ^ e % s.n)) := by
  subst h1 h2
  rw [← powMod_eq]
  exact congrArg Host.Outcome.next (State.complete_withModulus_check_passes hmv (by omega) .range rd _)

theorem exec_modexpChk_of_plaintext {s : State} (hmv : s.mv = true) (rd : Reg) {rs1 rs2 : Reg} {a e : Nat}
    (h1 : s.readReg rs1 = a) (h2 : s.readReg rs2 = e) (hpos : 1 ≤ a) (ha : a < s.n) :
    exec (.modexpChk rd rs1 rs2) s = .next (wrote s rd (a ^ e % s.n)) := by
  subst h1 h2
  rw [← powMod_eq]
  exact congrArg Host.Outcome.next (State.complete_withModulus_check_passes hmv (by omega) .ptrange rd _)

/-- Settles O20: the completion checks the modulus and then the base against it, and repeated squaring writes the exact power. -/
theorem modexpResult : Obligations.ModexpResult := by
  refine ⟨decode_modexp_rows, fun rd rs1 rs2 s =>
    ⟨fun hmv => ?_, fun hmv h => ?_, fun hmv h => exec_modexp_of_lt hmv rd rfl rfl h⟩⟩
  · exact congrArg Host.Outcome.next (State.complete_withModulus_none hmv _)
  · exact congrArg Host.Outcome.next (State.complete_withModulus_check_fails hmv h .range _)

/-- Settles O21: the completion checks the modulus and then the plaintext range, whose one error is PTRANGE, and repeated squaring
writes the exact power. -/
theorem modexpChkResult : Obligations.ModexpChkResult := by
  refine ⟨decode_modexp_rows, fun rd rs1 rs2 s =>
    ⟨fun hmv => ?_, fun hmv h => ?_, fun hmv hpos h => exec_modexpChk_of_plaintext hmv rd rfl rfl hpos h⟩⟩
  · exact congrArg Host.Outcome.next (State.complete_withModulus_none hmv _)
  · exact congrArg Host.Outcome.next (State.complete_withModulus_check_fails hmv h .ptrange _)

end Sys2Proof.Machine
end

section
/-! PROOFS. The exponentiation datapath (R95): the scan on Montgomery forms is the scan of `powModFuel`, turn by turn. -/

namespace Sys2Proof.Machine

open Sys2Proof.Expect

/-- `acc = R mod N` is the Montgomery form of 1 (R95). -/
theorem toMontgomery_one (opw n : Nat) : toMontgomery opw n 1 = montRadix opw % n := by
  rw [toMontgomery, one_mul]

/-- One turn on Montgomery forms is the form of one turn of repeated squaring (R95). -/
theorem modexpBitStep_toMontgomery (opw : Nat) {n : Nat} (hn : goodModulus n) (a e x i : Nat) :
    modexpBitStep opw n (toMontgomery opw n a) e (toMontgomery opw n x) i =
      toMontgomery opw n (if e.testBit i then x * x % n * a % n else x * x % n) := by
  obtain ⟨hodd, h3⟩ := hn
  rw [modexpBitStep, montProduct_toMontgomery opw x x hodd h3, montProduct_toMontgomery opw _ a hodd h3]
  split <;> rfl

/-- The scan of the bits `k - 1` down to 0 keeps the accumulator the Montgomery form of repeated squaring's (R95). -/
theorem foldl_modexpBitStep_toMontgomery (opw : Nat) {n : Nat} (hn : goodModulus n) (a e : Nat) :
    ∀ k x, (List.range k).reverse.foldl (modexpBitStep opw n (toMontgomery opw n a) e) (toMontgomery opw n x) =
      toMontgomery opw n (powModFuel n a k e x) := by
  intro k
  induction k with
  | zero => exact fun _ => rfl
  | succ k ih =>
    intro x
    rw [List.range_succ, List.reverse_concat, List.foldl_cons, modexpBitStep_toMontgomery opw hn, ih, powModFuel]
    split <;> rfl

/-- Settles O31: from the form of 1 the scan of all OPW bits ends in the form of the exact power, and the last multiplication by 1
leaves the Montgomery domain. -/
theorem modexpDatapathRefines : Obligations.ModexpDatapathRefines := by
  intro opw n a e hn _ he
  have h3 : 3 ≤ n := hn.2
  have hpow : powModFuel n a opw e 1 = a ^ e % n := by
    rw [powModFuel_eq n a e opw 1 (Nat.mod_eq_of_lt (by omega)), one_pow, one_mul, Nat.mod_eq_of_lt he]
  rw [modexpDatapath, ← toMontgomery_one, foldl_modexpBitStep_toMontgomery opw hn, hpow,
    ← fromMontgomery_eq_montProduct, fromMontgomery_toMontgomery opw hn.1 h3 (Nat.mod_lt _ (by omega))]

end Sys2Proof.Machine
end

section
/-! PROOFS. The RSA round trip (R93): Fermat's theorem at both primes, and the command sequence MODINV, MODEXP.CHK, MODEXP. -/

namespace Sys2Proof.Machine

open Sys2Proof.Expect

/-! The exponents `e` and `d` undo each other modulo `p * q`. -/

/-- Fermat's theorem for every base, the multiples of `p` included. -/
theorem pow_modEq_self_of_prime {p k : Nat} (hp : p.Prime) (hk : k ≡ 1 [MOD p - 1]) (hpos : 1 ≤ k) (m : Nat) :
    m ^ k ≡ m [MOD p] := by
  have h := Int.ModEq.pow_eq_pow hp ((Nat.modEq_iff_dvd' hpos).mp hk.symm) hpos Nat.one_pos m
  rw [pow_one] at h
  exact_mod_cast h

/-- The Chinese remainder theorem joins the two primes: an exponent that is 1 modulo `phi` keeps every base (R93). -/
theorem pow_modEq_self_of_two_primes {p q k : Nat} (hp : p.Prime) (hq : q.Prime) (hpq : p ≠ q)
    (hk : k ≡ 1 [MOD (p - 1) * (q - 1)]) (hpos : 1 ≤ k) (m : Nat) : m ^ k ≡ m [MOD p * q] :=
  (Nat.modEq_and_modEq_iff_modEq_mul ((Nat.coprime_primes hp hq).mpr hpq)).mp
    ⟨pow_modEq_self_of_prime hp (hk.of_mul_right _) hpos m, pow_modEq_self_of_prime hq (hk.of_mul_left _) hpos m⟩

theorem two_le_totient_of_two_primes {p q : Nat} (hp : p.Prime) (hq : q.Prime) (hpq : p ≠ q) : 2 ≤ (p - 1) * (q - 1) := by
  have hp2 := hp.two_le
  have hq2 := hq.two_le
  rcases Nat.lt_or_gt_of_ne hpq with h | h
  · exact Nat.mul_le_mul (show 1 ≤ p - 1 by omega) (show 2 ≤ q - 1 by omega)
  · exact Nat.mul_le_mul (show 2 ≤ p - 1 by omega) (show 1 ≤ q - 1 by omega)

/-- Decryption undoes encryption on the numbers: `(m^e mod N)^d mod N = m` (R93). -/
theorem decrypt_encrypt {p q e d m : Nat} (hp : p.Prime) (hq : q.Prime) (hpq : p ≠ q)
    (hed : e * d % ((p - 1) * (q - 1)) = 1) (hm : m < p * q) : (m ^ e % (p * q)) ^ d % (p * q) = m := by
  have hphi := two_le_totient_of_two_primes hp hq hpq
  have hone : e * d ≡ 1 [MOD (p - 1) * (q - 1)] := by rw [Nat.ModEq, hed, Nat.mod_eq_of_lt (by omega)]
  have hpos : 1 ≤ e * d := Nat.pos_of_ne_zero fun h0 => by simp [h0] at hed
  rw [← Nat.pow_mod, ← pow_mul, pow_modEq_self_of_two_primes hp hq hpq hone hpos m, Nat.mod_eq_of_lt hm]

/-! The commands. -/

/-- MODINV of coprime operands writes an inverse (R101). -/
theorem exec_modinv_of_coprime {s : State} (rd : Reg) {rs1 rs2 : Reg} (hm : 2 ≤ s.readReg rs2)
    (hcoprime : Nat.gcd (s.readReg rs1) (s.readReg rs2) = 1) :
    ∃ x, 1 ≤ x ∧ x < s.readReg rs2 ∧ s.readReg rs1 * x % s.readReg rs2 = 1 ∧
      exec (.modinv rd rs1 rs2) s = .next (wrote s rd x) := by
  rcases inverseResult_cases (s.readReg rs1) (s.readReg rs2) with ⟨hlt, -⟩ | ⟨-, hne, -⟩ | ⟨-, -, x, hpos, hlt, hinv, hok⟩
  · omega
  · exact absurd hcoprime hne
  · refine ⟨x, hpos, hlt, hinv, congrArg Host.Outcome.next ?_⟩
    rw [hok, Except.map, State.complete_writeReg_eq]

/-- MODEXP.CHK of the plaintext, then MODEXP of the ciphertext by what `rd` holds (R93). -/
theorem runAll_modexpChk_modexp {s : State} (hmv : s.mv = true) {rm re rd rc : Reg} (rx : Reg) (hcd : rc ≠ rd)
    (hpos : 1 ≤ s.readReg rm) (hm : s.readReg rm < s.n) :
    ∃ t, runAll [.modexpChk rc rm re, .modexp rx rc rd] s =
      some (wrote t rx ((s.readReg rm ^ s.readReg re % s.n) ^ s.readReg rd % s.n)) := by
  have hdecrypt := exec_modexp_of_lt (s := wrote s rc (s.readReg rm ^ s.readReg re % s.n)) hmv rx
    (wrote_readReg_self _ _ _) (wrote_readReg_of_ne _ _ hcd.symm) (Nat.mod_lt _ (Nat.zero_lt_of_lt hm))
  exact ⟨_, by rw [runAll_cons (exec_modexpChk_of_plaintext hmv rc rfl rfl hpos hm), runAll_cons hdecrypt, runAll, wrote_n]⟩

/-- Settles O29: MODINV leaves the other operands and writes an inverse of `e` modulo `phi`, with which the two exponentiations give
the plaintext back. -/
theorem rsaRoundTrip : Obligations.RsaRoundTrip := by
  intro s p q rm re rphi rd rc rx hp hq hpq hmv hn hphi hcoprime hpos hm hdm hde hcd
  obtain ⟨d, -, -, hed, hmodinv⟩ :=
    exec_modinv_of_coprime rd (hphi ▸ two_le_totient_of_two_primes hp hq hpq) hcoprime
  rw [hphi] at hed
  have hrm : (wrote s rd d).readReg rm = s.readReg rm := wrote_readReg_of_ne _ _ hdm.symm
  have hre : (wrote s rd d).readReg re = s.readReg re := wrote_readReg_of_ne _ _ hde.symm
  obtain ⟨t, hrun⟩ := runAll_modexpChk_modexp (s := wrote s rd d) hmv (re := re) rx hcd (hrm ▸ hpos) (hrm ▸ hm)
  rw [hrm, hre, wrote_readReg_self, wrote_n, hn, decrypt_encrypt hp hq hpq hed (hn ▸ hm)] at hrun
  exact ⟨_, (runAll_cons hmodinv _).trans hrun, wrote_err _ _ _, wrote_readReg_self _ _ _⟩

end Sys2Proof.Machine
end

section
/-! PROOFS. What MODMUL and MODRED complete with (43_barrett.md): NOMOD, or the remainder of the exact number written (R96, R97), and
their laws (R98). -/

namespace Sys2Proof.Machine

open Sys2Proof.Expect

/-- Settles O22: OP 0x30 has one row, and the completion checks the modulus alone. -/
theorem modmulResult : Obligations.ModmulResult := by
  constructor
  · exact opRow_of_unique (row := opcodeMap[9]) (List.getElem_mem _) (by decide)
  · intro rd rs1 rs2 s
    exact ⟨fun hmv => congrArg Host.Outcome.next (State.complete_withModulus_none hmv _),
      fun hmv => exec_modmul_of_loaded hmv rd rs1 rs2⟩

theorem exec_modred_of_loaded {s : State} (hmv : s.mv = true) (rd rs1 rs2 : Reg) :
    exec (.modred rd rs1 rs2) s =
      .next (wrote s rd (concatHalves s.plat.opw (s.readReg rs1) (s.readReg rs2) % s.n)) :=
  congrArg Host.Outcome.next (by rw [State.withModulus_loaded hmv, State.complete_writeReg_eq])

/-- Settles O23: OP 0x31 has one row, and the completion checks the modulus alone. -/
theorem modredResult : Obligations.ModredResult := by
  constructor
  · exact opRow_of_unique (row := opcodeMap[10]) (List.getElem_mem _) (by decide)
  · intro rd rs1 rs2 s
    exact ⟨fun hmv => congrArg Host.Outcome.next (State.complete_withModulus_none hmv _),
      fun hmv => exec_modred_of_loaded hmv rd rs1 rs2⟩

/-! The laws. -/

/-- A number is its two halves put together (R11). -/
theorem concatHalves_div_mod (opw x : Nat) : concatHalves opw (x / 2 ^ opw) (x % 2 ^ opw) = x := Nat.div_add_mod' x _

theorem concatHalves_zero_left (opw l : Nat) : concatHalves opw 0 l = l := by
  rw [concatHalves, Nat.zero_mul, Nat.zero_add]

/-- Settles O27: the halves put together are the product, the Montgomery route ends in the product modulo `N`, and a number below
`N` is its own remainder. -/
theorem barrettLaws : Obligations.BarrettLaws := by
  intro s hmv
  refine ⟨fun rd ra rb rh rl hh hl => ?_, fun rd ra rb r1 r2 r3 hn ha hb h1b h12 => ?_, fun rd rh rl hh hl => ?_⟩
  · rw [exec_modmul_of_loaded hmv, exec_modred_of_loaded hmv, hh, hl, concatHalves_div_mod]
  · obtain ⟨u, hroute⟩ := runAll_montgomery_route hmv hn ha hb h1b h12 r3 rd
    exact ⟨_, _, runAll_cons (exec_modmul_of_loaded hmv rd ra rb) [], hroute, wrote_err _ _ _, wrote_err _ _ _,
      by simp only [wrote_readReg_self]⟩
  · rw [exec_modred_of_loaded hmv, hh, concatHalves_zero_left, Nat.mod_eq_of_lt hl]

end Sys2Proof.Machine
end

section
/-! PROOFS. The Barrett datapath (R99): the estimate of the quotient, and the one correction. -/

namespace Sys2Proof.Machine

open Sys2Proof.Expect

/-- `MU` is a quotient rounded down, so the estimate is never too large (R99). -/
theorem barrettQuotient_mul_le (opw n x : Nat) : barrettQuotient opw n x * n ≤ x := by
  refine Nat.le_of_mul_le_mul_right ?_ (Nat.two_pow_pos (2 * opw))
  calc barrettQuotient opw n x * n * 2 ^ (2 * opw)
      = barrettQuotient opw n x * 2 ^ (2 * opw) * n := Nat.mul_right_comm _ _ _
    _ ≤ x * barrettMu opw n * n := Nat.mul_le_mul_right n (Nat.div_mul_le_self _ _)
    _ = x * (barrettMu opw n * n) := Nat.mul_assoc _ _ _
    _ ≤ x * 2 ^ (2 * opw) := Nat.mul_le_mul_left x (Nat.div_mul_le_self _ _)

/-- Each of the two roundings, of `MU` and of the estimate, loses less than one `N`, because `x < 2^(2*OPW)` (R99). -/
theorem lt_barrettQuotient_add_two_mul {opw n x : Nat} (hn : 0 < n) (hx : x < 2 ^ (2 * opw)) :
    x < (barrettQuotient opw n x + 2) * n := by
  have hestimate : x * barrettMu opw n < (barrettQuotient opw n x + 1) * 2 ^ (2 * opw) :=
    Nat.lt_mul_of_div_lt (Nat.lt_succ_self _) (Nat.two_pow_pos _)
  have hmu : 2 ^ (2 * opw) < (barrettMu opw n + 1) * n := Nat.lt_mul_of_div_lt (Nat.lt_succ_self _) hn
  refine Nat.lt_of_mul_lt_mul_right (a := 2 ^ (2 * opw)) ?_
  calc x * 2 ^ (2 * opw)
      ≤ x * ((barrettMu opw n + 1) * n) := Nat.mul_le_mul_left x hmu.le
    _ = x * barrettMu opw n * n + x * n := by ring
    _ < (barrettQuotient opw n x + 1) * 2 ^ (2 * opw) * n + 2 ^ (2 * opw) * n :=
        Nat.add_lt_add (Nat.mul_lt_mul_of_pos_right hestimate hn) (Nat.mul_lt_mul_of_pos_right hx hn)
    _ = (barrettQuotient opw n x + 2) * n * 2 ^ (2 * opw) := by ring

/-- Settles O32: the two bounds on the estimate leave two quotients, and a number below `2 * N` to correct. -/
theorem barrettDatapathRefines : Obligations.BarrettDatapathRefines := by
  intro opw n x ⟨_, h3⟩ hx
  have hn : 0 < n := by omega
  have hle : barrettQuotient opw n x * n ≤ x := barrettQuotient_mul_le opw n x
  have hlt : x < (barrettQuotient opw n x + 2) * n := lt_barrettQuotient_add_two_mul hn hx
  constructor
  · have hlower : barrettQuotient opw n x ≤ x / n := (Nat.le_div_iff_mul_le hn).mpr hle
    have hupper : x / n < barrettQuotient opw n x + 2 := (Nat.div_lt_iff_lt_mul hn).mpr hlt
    omega
  · rw [Nat.add_mul] at hlt
    rw [barrettDatapath, correctOnce_eq_mod (by omega), Nat.mul_comm, Nat.sub_mul_mod (Nat.mul_comm _ n ▸ hle)]

end Sys2Proof.Machine
end

section
/-! PROOFS. What GCD and MODINV complete with (44_gcd.md): the greatest common divisor written, and RANGE, NOINV or the inverse written
(R100 to R102). -/

namespace Sys2Proof.Machine

open Sys2Proof.Expect

/-- GCD reads no modulus, so it always writes (R100). -/
theorem exec_gcd (rd rs1 rs2 : Reg) (s : State) :
    exec (.gcd rd rs1 rs2) s = .next (wrote s rd (Nat.gcd (s.readReg rs1) (s.readReg rs2))) :=
  congrArg Host.Outcome.next (s.complete_writeReg_eq rd _)

/-- Settles O24: OP 0x40 has one row, and the number written divides both operands and is divided by their common divisors. -/
theorem gcdResult : Obligations.GcdResult := by
  constructor
  · exact opRow_of_unique (row := opcodeMap[11]) (List.getElem_mem _) (by decide)
  · intro rd rs1 rs2 s
    refine ⟨_, Nat.gcd_dvd_left _ _, Nat.gcd_dvd_right _ _, fun _ => Nat.dvd_gcd, fun h1 h2 => ?_, exec_gcd rd rs1 rs2 s⟩
    rw [h1, h2, Nat.gcd_zero_left]

/-! MODINV's two errors. -/

theorem exec_modinv_of_error {s : State} (rd : Reg) {rs1 rs2 : Reg} {e : CmdError}
    (h : inverseResult (s.readReg rs1) (s.readReg rs2) = .error e) :
    exec (.modinv rd rs1 rs2) s = .next (failed s e.code) :=
  congrArg Host.Outcome.next (by rw [h, Except.map, State.complete_error_eq])

theorem exec_modinv_of_lt_two {s : State} (rd rs1 : Reg) {rs2 : Reg} (hm : s.readReg rs2 < 2) :
    exec (.modinv rd rs1 rs2) s = .next (failed s 4#4) :=
  exec_modinv_of_error rd (e := .range) (if_pos hm)

theorem exec_modinv_of_not_coprime {s : State} (rd : Reg) {rs1 rs2 : Reg} (hm : 2 ≤ s.readReg rs2)
    (hcommon : Nat.gcd (s.readReg rs1) (s.readReg rs2) ≠ 1) :
    exec (.modinv rd rs1 rs2) s = .next (failed s 6#4) := by
  rcases inverseResult_cases (s.readReg rs1) (s.readReg rs2) with ⟨hlt, -⟩ | ⟨-, -, hnoinv⟩ | ⟨-, hcoprime, -⟩
  · omega
  · exact exec_modinv_of_error rd hnoinv
  · exact absurd hcoprime hcommon

/-- Settles O25: OP 0x41 has one row, and the completion checks the modulus `m`, then that the operands are coprime. -/
theorem modinvResult : Obligations.ModinvResult := by
  constructor
  · exact opRow_of_unique (row := opcodeMap[12]) (List.getElem_mem _) (by decide)
  · exact fun rd rs1 _ _ =>
      ⟨exec_modinv_of_lt_two rd rs1, exec_modinv_of_not_coprime rd, exec_modinv_of_coprime rd⟩

/-- Settles O28: both commands turn on the one number `gcd(a, m)`. -/
theorem inverseExistsWhenCoprime : Obligations.InverseExistsWhenCoprime := by
  intro s rd rg ra rm hm
  have hgcd : (wrote s rg (Nat.gcd (s.readReg ra) (s.readReg rm))).readReg rg = Nat.gcd (s.readReg ra) (s.readReg rm) :=
    wrote_readReg_self _ _ _
  by_cases hcoprime : Nat.gcd (s.readReg ra) (s.readReg rm) = 1
  · obtain ⟨x, hpos, hlt, -, hmodinv⟩ := exec_modinv_of_coprime rd hm hcoprime
    refine ⟨_, _, hmodinv, exec_gcd rg ra rm s, iff_of_true (wrote_err _ _ _) (hgcd.trans hcoprime), fun _ => ?_⟩
    rw [wrote_readReg_self]
    exact ⟨hpos, hlt⟩
  · have herr : (failed s 6#4).err ≠ 0#4 := show 6#4 ≠ 0#4 by decide
    exact ⟨_, _, exec_modinv_of_not_coprime rd hm hcoprime, exec_gcd rg ra rm s,
      iff_of_false herr (hgcd.trans_ne hcoprime), fun h => absurd h herr⟩

end Sys2Proof.Machine
end

section
/-! PROOFS. The two algorithms of R103: each step of the binary algorithm keeps the greatest common divisor of an odd number and
another, and the extended Euclidean algorithm ends in the gcd with its coefficient. -/

namespace Sys2Proof.Machine

/-! The binary algorithm, from the innermost loop out. -/

theorem gcd_half_right {a b : Nat} (ha : a % 2 = 1) (hb : b % 2 = 0) : Nat.gcd a (b / 2) = Nat.gcd a b := by
  have hcoprime : Nat.Coprime 2 a := Nat.coprime_two_left.mpr (Nat.odd_iff.mpr ha)
  rw [← hcoprime.gcd_mul_left_cancel_right, Nat.mul_div_cancel' (Nat.dvd_of_mod_eq_zero hb)]

theorem gcd_stripTwos {a : Nat} (ha : a % 2 = 1) : ∀ fuel b, Nat.gcd a (stripTwos fuel b) = Nat.gcd a b
  | 0, _ => rfl
  | fuel + 1, b => by
    rw [stripTwos]
    split
    · next heven => rw [gcd_stripTwos ha fuel, gcd_half_right ha heven]
    · rfl

theorem stripTwos_le : ∀ fuel a, stripTwos fuel a ≤ a
  | 0, _ => le_rfl
  | fuel + 1, a => by
    rw [stripTwos]
    split
    · exact (stripTwos_le fuel _).trans (Nat.div_le_self a 2)
    · exact le_rfl

/-- Fuel for as many halvings as the number itself reaches the odd part. -/
theorem stripTwos_odd : ∀ fuel a, 0 < a → a ≤ fuel → stripTwos fuel a % 2 = 1
  | 0, _, hpos, hfuel => by omega
  | fuel + 1, a, hpos, hfuel => by
    rw [stripTwos]
    split
    · exact stripTwos_odd fuel _ (by omega) (by omega)
    · omega

theorem stripTwos_of_odd {a : Nat} (ha : a % 2 = 1) : ∀ fuel, stripTwos fuel a = a
  | 0 => rfl
  | _ + 1 => if_neg (by omega)

/-- The loop keeps `a` odd and `gcd(a, b)`, and `a + b` falls (R103). -/
theorem steinLoop_eq_gcd : ∀ fuel a b, a % 2 = 1 → a + b ≤ fuel → steinLoop fuel a b = Nat.gcd a b
  | 0, _, _, ha, hfuel => by omega
  | fuel + 1, a, b, ha, hfuel => by
    rw [steinLoop]
    split
    · next hb => rw [hb, Nat.gcd_zero_right]
    · next hb =>
      have hodd : stripTwos b b % 2 = 1 := stripTwos_odd b b (Nat.pos_of_ne_zero hb) le_rfl
      have hle : stripTwos b b ≤ b := stripTwos_le b b
      rw [← gcd_stripTwos ha b b]
      split
      · next hlt => rw [steinLoop_eq_gcd fuel _ _ hodd (by omega), Nat.gcd_sub_self_right hlt.le, Nat.gcd_comm]
      · next hge => rw [steinLoop_eq_gcd fuel _ _ ha (by omega), Nat.gcd_sub_self_right (Nat.le_of_not_lt hge)]

/-- Once not both numbers are even, the twos of `a` are not common (R103). -/
theorem steinLoop_stripTwos {a b : Nat} (hpos : 0 < a) (h : ¬ (a % 2 = 0 ∧ b % 2 = 0)) :
    steinLoop (a + b) (stripTwos a a) b = Nat.gcd a b := by
  have hle : stripTwos a a ≤ a := stripTwos_le a a
  rw [steinLoop_eq_gcd _ _ _ (stripTwos_odd a a hpos le_rfl) (by omega)]
  rcases Nat.mod_two_eq_zero_or_one b with hb | hb
  · rw [stripTwos_of_odd (by omega)]
  · rw [Nat.gcd_comm, gcd_stripTwos hb, Nat.gcd_comm]

theorem steinShared_eq_gcd : ∀ fuel a b, 0 < a → a ≤ fuel → steinShared fuel a b = Nat.gcd a b
  | 0, _, _, hpos, hfuel => by omega
  | fuel + 1, a, b, hpos, hfuel => by
    rw [steinShared]
    split
    · next heven =>
      obtain ⟨ha, hb⟩ := heven
      rw [steinShared_eq_gcd fuel _ _ (by omega) (by omega), ← Nat.gcd_mul_right,
        Nat.div_mul_cancel (Nat.dvd_of_mod_eq_zero ha), Nat.div_mul_cancel (Nat.dvd_of_mod_eq_zero hb)]
    · next hodd => exact steinLoop_stripTwos hpos hodd

theorem binaryGcd_eq_gcd (a b : Nat) : binaryGcd a b = Nat.gcd a b := by
  rw [binaryGcd]
  split
  · next ha => rw [ha, Nat.gcd_zero_left]
  · next ha =>
    split
    · next hb => rw [hb, Nat.gcd_zero_right]
    · exact steinShared_eq_gcd a a b (Nat.pos_of_ne_zero ha) le_rfl

/-! The extended Euclidean algorithm. -/

/-- The algorithm ends in the gcd, and its coefficient is the number MODINV writes (R101, R103). -/
theorem extInv_eq (a m : Nat) : extInv a m = if Nat.gcd a m = 1 then some (modInv a m) else none := by
  rw [extInv, (extEuclid_start a m).1, modInv]

/-- Settles O33: the binary algorithm keeps the gcd in every loop, and the extended algorithm's answer is R12's inverse where there is
one. -/
theorem gcdDatapathsRefine : Obligations.GcdDatapathsRefine := by
  refine ⟨binaryGcd_eq_gcd, fun a m hm => ⟨fun hcoprime => ?_, fun hcommon => ?_⟩⟩
  · exact ⟨_, (extInv_eq a m).trans (if_pos hcoprime), modInv_spec hm hcoprime⟩
  · exact (extInv_eq a m).trans (if_neg hcommon)

end Sys2Proof.Machine
end

section
/-! PROOFS. The errors of a completion: every command completes with a code of R108, an error writes nothing (R112), and of several
errors the first in R110's order is reported. -/

namespace Sys2Proof.Machine

open Sys2Proof.Expect

/-- Settles O8: a completion is an error's code over the old state, or Execute's writes and no error. -/
theorem everyCommandCompletes : Obligations.EveryCommandCompletes := by
  intro i s
  obtain ⟨r, hexec, hcompletes⟩ := exec_completes i s
  refine ⟨_, hexec, ?_⟩
  cases r with
  | error e => exact ⟨rfl, rfl, rfl, e.code_range.2⟩
  | ok t =>
    have hcnt : t.cmdcnt = s.cmdcnt := (hcompletes t rfl).sameControl.cmdcnt
    exact ⟨rfl, rfl, by rw [State.complete_ok, State.finish_cmdcnt, hcnt], Nat.zero_le 6⟩

/-- Settles O9: only a completion without an error commits what Execute wrote. -/
theorem errorsArePrecise : Obligations.ErrorsArePrecise := by
  intro i s t hexec herr
  obtain ⟨r, hcomplete, -⟩ := exec_completes i s
  rw [hcomplete] at hexec
  cases hexec
  cases r with
  | error e => exact ⟨fun _ => rfl, rfl, rfl, rfl⟩
  | ok u => exact absurd rfl herr

/-! The code that Execute's outcome reports, check by check. -/

/-- The code a completion reports for the outcome of Execute (R105). -/
def reportedCode : Except CmdError State → BitVec 4
  | .ok _ => 0#4
  | .error e => e.code

theorem State.complete_err (s : State) (r : Except CmdError State) : (s.complete r).err = reportedCode r := by
  cases r <;> rfl

theorem reportedCode_check {c : Prop} [Decidable c] (e : CmdError) (t : State) :
    reportedCode (if c then .error e else .ok t) = if c then e.code else 0#4 :=
  apply_ite reportedCode c _ _

/-- The code R110 gives a decoded command: `errorCode` after its stage 1. -/
def commandErrorCode (s : State) (i : Instr) : BitVec 4 :=
  if needsModulus i = true ∧ s.mv = false then 2#4
  else if operandCheck s i ≠ 0#4 then operandCheck s i
  else inverseCheck s i

theorem errorCode_of_decode {s : State} {i : Instr} (h : decode s.cmd = some i) : errorCode s = commandErrorCode s i := by
  simp [errorCode, commandErrorCode, h]

theorem errorCode_of_undecoded {s : State} (h : decode s.cmd = none) : errorCode s = 1#4 := by
  simp [errorCode, h]

/-- Past NOMOD, and with no inverse to find, the operand check is the last (R110). -/
theorem commandErrorCode_eq_operandCheck {s : State} {i : Instr} (hmod : ¬ (needsModulus i = true ∧ s.mv = false))
    (hinv : inverseCheck s i = 0#4) : commandErrorCode s i = operandCheck s i := by
  rw [commandErrorCode, if_neg hmod, hinv, ite_not]
  split
  · next hcheck => exact hcheck.symm
  · rfl

/-- A command of the modulus reports NOMOD before what the rest of Execute, run with `N`, reports (R110). -/
theorem reportedCode_withModulus {s : State} {i : Instr} {k : Nat → Except CmdError State} (hmod : needsModulus i = true)
    (hinv : inverseCheck s i = 0#4) (hrest : reportedCode (k s.n) = operandCheck s i) :
    reportedCode (s.withModulus k) = commandErrorCode s i := by
  cases hmv : s.mv with
  | false => simp [State.withModulus_none hmv, commandErrorCode, hmod, hmv, reportedCode, CmdError.code]
  | true =>
    rw [State.withModulus_loaded hmv, hrest, commandErrorCode_eq_operandCheck (by simp [hmv]) hinv]

/-- SETMOD turns away the even moduli and those below 3 (R83). -/
theorem reportedCode_setmod (s : State) (rs1 : Reg) :
    reportedCode (if badModulus (s.readReg rs1) then .error .badmod else .ok (s.loadModulus (s.readReg rs1))) =
      commandErrorCode s (.setmod rs1) := by
  rw [reportedCode_check, commandErrorCode_eq_operandCheck (by simp [needsModulus]) rfl]
  simp [badModulus, operandCheck, CmdError.code]

/-- MODINV reports RANGE before NOINV (R101, R110). -/
theorem reportedCode_modinv (s : State) (rd rs1 rs2 : Reg) :
    reportedCode ((inverseResult (s.readReg rs1) (s.readReg rs2)).map (s.writeReg rd)) =
      commandErrorCode s (.modinv rd rs1 rs2) := by
  rcases inverseResult_cases (s.readReg rs1) (s.readReg rs2) with ⟨hm, hr⟩ | ⟨hm, hg, hr⟩ | ⟨hm, hg, x, -, -, -, hr⟩
  · simp [hr, Except.map, reportedCode, CmdError.code, commandErrorCode, needsModulus, operandCheck, hm]
  · simp [hr, Except.map, reportedCode, CmdError.code, commandErrorCode, needsModulus, operandCheck, inverseCheck,
      Nat.not_lt.mpr hm, hg]
  · simp [hr, Except.map, reportedCode, commandErrorCode, needsModulus, operandCheck, inverseCheck, Nat.not_lt.mpr hm, hg]

/-- Execute of each command makes its checks in R110's order. -/
theorem exec_reportedCode (i : Instr) (s : State) :
    ∃ r, exec i s = .next (s.complete r) ∧ reportedCode r = commandErrorCode s i := by
  cases i with
  | nop => exact ⟨_, rfl, rfl⟩
  | mov rd rs1 => exact ⟨_, rfl, rfl⟩
  | ldi rd imm => exact ⟨_, rfl, rfl⟩
  | setmod rs1 => exact ⟨_, rfl, reportedCode_setmod s rs1⟩
  | montmul rd rs1 rs2 => exact ⟨_, rfl, reportedCode_withModulus rfl rfl (reportedCode_check .range _)⟩
  | tomont rd rs1 => exact ⟨_, rfl, reportedCode_withModulus rfl rfl (reportedCode_check .range _)⟩
  | frommont rd rs1 => exact ⟨_, rfl, reportedCode_withModulus rfl rfl (reportedCode_check .range _)⟩
  | modexp rd rs1 rs2 => exact ⟨_, rfl, reportedCode_withModulus rfl rfl (reportedCode_check .range _)⟩
  | modexpChk rd rs1 rs2 => exact ⟨_, rfl, reportedCode_withModulus rfl rfl (reportedCode_check .ptrange _)⟩
  | modmul rd rs1 rs2 => exact ⟨_, rfl, reportedCode_withModulus rfl rfl rfl⟩
  | modred rd rs1 rs2 => exact ⟨_, rfl, reportedCode_withModulus rfl rfl rfl⟩
  | gcd rd rs1 rs2 => exact ⟨_, rfl, rfl⟩
  | modinv rd rs1 rs2 => exact ⟨_, rfl, reportedCode_modinv s rd rs1 rs2⟩

/-- Settles O11: a word that decodes to no row reports ILLEGAL, and a decoded command what its own checks report. -/
theorem errorPriority : Obligations.ErrorPriority := by
  intro s
  cases hi : decode s.cmd with
  | none => exact ⟨_, completeCommand_of_undecoded hi, (errorCode_of_undecoded hi).symm⟩
  | some i =>
    obtain ⟨r, hexec, hcode⟩ := exec_reportedCode i s
    refine ⟨_, (completeCommand_of_decode hi).trans hexec, ?_⟩
    rw [State.complete_err, hcode, errorCode_of_decode hi]

end Sys2Proof.Machine
end

section
/-! PROOFS. The command in flight completes: a quiet turn of the host keeps it, any number of them may come first, and the engine's
turn ends it (R118, R134, R135). -/

namespace Sys2Proof.Machine

open Sys2Proof.Expect

/-! A quiet turn of the host. -/

/-- An access that gets no bus error is answered (R43). -/
theorem exists_hostAccess_of_not_busErrors {op : HostOp} {s : State} (h : busErrors s.plat op = false) :
    ∃ t, hostAccess op s = .next t := by
  cases op with
  | read addr width => cases hsel : select s.plat addr width <;> simp [busErrors, hostAccess, hsel] at h ⊢
  | write addr width d => cases hsel : select s.plat addr width <;> simp [busErrors, hostAccess, hsel] at h ⊢
  | fetch addr => exact ⟨_, if_neg (Bool.eq_false_iff.mp h)⟩

theorem WriteEffect.plat_agenda {s t : State} (h : WriteEffect s t) : t.plat = s.plat ∧ t.agenda = s.agenda := by
  cases h <;> exact ⟨rfl, rfl⟩

/-- No access of the host changes the parameters or the turns to come. -/
theorem AccessEffect.plat_agenda {s t : State} (h : AccessEffect s t) : t.plat = s.plat ∧ t.agenda = s.agenda := by
  cases h with
  | answered a => exact ⟨rfl, rfl⟩
  | drawn a => exact ⟨rfl, rfl⟩
  | written hw => exact hw.plat_agenda

/-- A state with a turn to come is one that this turn faces. -/
theorem exists_facing_of_agenda {s : State} {t : Turn} {rest : List Turn} (ha : s.agenda = t :: rest) :
    ∃ s₀ : State, s = facing t s₀ ∧ s₀.agenda = rest :=
  ⟨{ s with agenda := rest }, by rw [facing, ← ha], rfl⟩

/-- The command in flight in `s` still is in `t`. -/
structure StillInFlight (s t : State) : Prop where
  busy : t.busy = true
  cmd : t.cmd = s.cmd
  cmdcnt : t.cmdcnt = s.cmdcnt
  plat : t.plat = s.plat
  agenda : t.agenda = s.agenda

/-- A host's turn that is no soft reset and no bus error is a step, and leaves the command in flight (R50, R60). -/
theorem step_quiet_host {s : State} {op : HostOp} (hl : s.plat.legal = true) (hb : s.busy = true)
    (hq : quietTurn s.plat (.host op) = true) : ∃ t, step (facing (.host op) s) = .next t ∧ StillInFlight s t := by
  simp only [quietTurn, Bool.and_eq_true, Bool.not_eq_true'] at hq
  obtain ⟨hsoft, herror⟩ := hq
  obtain ⟨t, haccess⟩ := exists_hostAccess_of_not_busErrors herror
  have hstep : step (facing (.host op) s) = .next t := (step_facing hl _).trans haccess
  obtain ⟨-, hkeep⟩ := hostLeavesTheCommandAlone s t op hb hstep
  obtain ⟨-, -, hcmd, hbusy, hcnt⟩ := hkeep hsoft
  obtain ⟨hplat, hagenda⟩ := (hostAccess_effect haccess).plat_agenda
  exact ⟨t, hstep, hbusy, hcmd, hcnt, hplat, hagenda⟩

/-- Settles O56, by induction on the agenda: a quiet host turn leaves the command in flight with one turn less to come; the engine's
turn, or the end of the agenda, completes it. -/
theorem acceptedCommandCompletes : Obligations.AcceptedCommandCompletes := by
  intro s
  induction ha : s.agenda generalizing s with
  | nil =>
    intro hl hb _
    obtain ⟨u, hcomplete, hu⟩ := completeCommand_completed s
    have hstep := (step_nil_busy hl ha hb).trans hcomplete
    exact ⟨1, u, by simp, run_succ_of_step hstep 0, hu.busy, hu.done, hu.cmd, hu.cmdcnt⟩
  | cons turn rest ih =>
    intro hl hb hquiet
    obtain ⟨hturn, hrest⟩ := List.forall_mem_cons.mp hquiet
    obtain ⟨s, rfl, rfl⟩ := exists_facing_of_agenda ha
    cases turn with
    | rst => cases hturn
    | engine =>
      obtain ⟨u, hcomplete, hu⟩ := completeCommand_completed s
      have hstep := (step_facing_engine_busy (s := s) hl hb).trans hcomplete
      exact ⟨1, u, by simp, run_succ_of_step hstep 0, hu.busy, hu.done, hu.cmd, hu.cmdcnt⟩
    | host op =>
      obtain ⟨t, hstep, ht⟩ := step_quiet_host (s := s) hl hb hturn
      obtain ⟨k, u, hk, hrun, hbusy, hdone, hcmd, hcnt⟩ := ih t ht.agenda (ht.plat ▸ hl) ht.busy (ht.plat ▸ hrest)
      exact ⟨k + 1, u, by simpa using hk, (run_succ_of_step hstep k).trans hrun, hbusy, hdone, hcmd.trans ht.cmd,
        hcnt.trans (congrArg (· + 1#32) ht.cmdcnt)⟩

/-! Polling STATUS. -/

/-- What the host holds as its last answer after `k` reads of STATUS. -/
def State.answerAfterPolls (s : State) : Nat → Response
  | 0 => s.resp
  | _ + 1 => .data s.statusValue

/-- Reads of STATUS change the last answer only, and each answers the same (R48, R53). -/
theorem run_hostPolls (k : Nat) (rest : List Turn) {s : State} (hl : s.plat.legal = true) :
    Host.Core.run core k { s with agenda := List.replicate k (hostPoll s.plat) ++ rest } =
      .next (s.withHostSide s.ovr rest (s.answerAfterPolls k)) := by
  induction k generalizing s with
  | zero => rfl
  | succ k ih =>
    have hstep := step_hostPoll (s := { s with agenda := List.replicate k (hostPoll s.plat) ++ rest }) hl
    refine (run_succ_of_step hstep k).trans ((ih (s := s.respond (.data s.statusValue)) hl).trans ?_)
    cases k <;> rfl

/-- Settles O57: the reads leave the state as it was but for the last answer, which no completion reads. -/
theorem anyDelayIsARun : Obligations.AnyDelayIsARun := by
  intro s k hl hb
  obtain ⟨u, hcomplete, hu⟩ := completeCommand_completed s
  have hengine := step_engine_after hl hb hcomplete s.ovr (s.answerAfterPolls k)
  refine ⟨_, _, run_hostPolls k _ hl, hb, fun hk => ?_, hengine, ?_⟩
  · obtain ⟨j, rfl⟩ := Nat.exists_eq_succ_of_ne_zero hk.ne'
    exact ⟨_, rfl, s.statusValue_fields.1.trans hb⟩
  · rw [step_facing_engine_busy hl hb, hcomplete, ← hu.ovr, ← hu.agenda, ← hu.resp]
    rfl

end Sys2Proof.Machine
end
